-- ==== Sys2Proof/Word.lean ====
section
/-! DEFINITION. The widths of the machine's values (spec/00_scope.md R7, R10, R11).
Every value is unsigned; nothing here is ever sign-extended. -/

namespace Sys2Proof

/-- One byte: a general register, a timer, a memory cell (R7, `XLEN_V`, `TIMER_W`). -/
abbrev Byte := BitVec 8

/-- Sixteen bits: `PC`, `I`, a call-stack slot, an instruction word (R7). -/
abbrev Word := BitVec 16

/-- A four-bit field of an instruction word (R14, "Nibble"); a register index (R21). -/
abbrev Nibble := BitVec 4

/-- The twelve-bit address field `nnn` (R82). -/
abbrev Addr12 := BitVec 12

end Sys2Proof
end

