-- ==== Sys2Proof/Config.lean ====
section
/-! DEFINITION. The constants the source fixes (spec/00_scope.md R7) and the shape of the four
parameters it leaves without a value (R8). The default values of the parameters stand in
Machine/Parameters.lean. The machine has no free value: spec/70_reset_and_hazards.md R227. -/

namespace Sys2Proof

/-- `NREGS`: the number of general registers (R7). -/
abbrev nregs : Nat := 16

/-- `STACK_CAP`: the capacity of the call stack (R7). -/
abbrev stackCap : Nat := 16

/-- `FB_W`: the framebuffer's width in cells (R7). -/
abbrev fbW : Nat := 64

/-- `FB_H`: the framebuffer's height in cells (R7). -/
abbrev fbH : Nat := 32

/-- The number of framebuffer cells, `FB_W * FB_H` (R35). -/
abbrev fbCells : Nat := 2048

/-- `FONT_LEN`: the length of the font table in bytes (R7). -/
abbrev fontLen : Nat := 80

/-- The four parameters of a machine (R8): fixed for its life and no part of its state (R40). -/
structure Params where
  /-- `MEM_SIZE`: the number of bytes of memory. -/
  memSize : Nat
  /-- `START_ADDR`: where `PC` starts and where a program is loaded. -/
  startAddr : Word
  /-- `KEY_COUNT`: the number of keys. -/
  keyCount : Nat
  /-- `FONT`: exactly `FONT_LEN` bytes. -/
  font : Vector Byte fontLen
  deriving DecidableEq, Repr

/-- The constraints R8 puts on the parameters. The length of `FONT` is held by its type. -/
abbrev Params.Legal (p : Params) : Prop :=
  fontLen ≤ p.startAddr.toNat ∧ p.startAddr.toNat + 2 ≤ p.memSize ∧ p.memSize ≤ 65536 ∧
    1 ≤ p.keyCount

end Sys2Proof
end

