-- ==== Sys2Proof/Syntax.lean ====
section
/-! DEFINITION. The eleven instructions, one constructor per row of spec/opcode_table.json, in its
order (spec/30_encoding.md R83, R85). -/

namespace Sys2Proof

/-- An instruction with its operand fields. Every value of a field is legal (R83), so every term of
this type is an instruction of the machine. -/
inductive Instr where
  /-- NOP, `0000` (R110). -/
  | nop
  /-- CLS, `00E0` (R111). -/
  | cls
  /-- RET, `00EE` (R112). -/
  | ret
  /-- JMP nnn, `1nnn` (R120). -/
  | jmp (nnn : Addr12)
  /-- CALL nnn, `2nnn` (R121). -/
  | call (nnn : Addr12)
  /-- SKIP-EQ Vx,nn, `3xnn` (R130). -/
  | skipEqImm (x : Nibble) (nn : Byte)
  /-- SKIP-NEQ Vx,nn, `4xnn` (R131). -/
  | skipNeqImm (x : Nibble) (nn : Byte)
  /-- SKIP-EQ Vx,Vy, `5xy0` (R132). -/
  | skipEqReg (x y : Nibble)
  /-- SET Vx,nn, `6xnn` (R140). -/
  | setImm (x : Nibble) (nn : Byte)
  /-- ADD Vx,nn, `7xnn` (R141). -/
  | addImm (x : Nibble) (nn : Byte)
  /-- COPY Vx,Vy, `8xy0`: destination `x`, source `y` (R142). -/
  | copyReg (x y : Nibble)
  deriving DecidableEq, Repr

end Sys2Proof
end

