-- ==== Sys2Proof/WellFormed.lean ====
section
/-! DEFINITION. What is well formed. The operands of an instruction are well formed by their types
(spec/30_encoding.md R83: every value of a variable field is legal; spec/10_state.md R21: an index
is in range by construction), so the check on an instruction is on its WORD: it is well formed when
it selects a row of the opcode map (R85), and unimplemented otherwise (R86). The constraints on the
parameters are `Params.Legal` (R8). -/

namespace Sys2Proof

/-- The four formats of R83. -/
inductive Format where
  /-- No operand. -/
  | z
  /-- A 12-bit address. -/
  | a
  /-- A register and an immediate. -/
  | xi
  /-- Two registers and a literal low nibble. -/
  | xy
  deriving DecidableEq, Repr

/-- One row of the opcode map (R85). -/
structure OpcodeRow where
  mnemonic : String
  format : Format
  mask : Word
  pattern : Word
  deriving DecidableEq, Repr

/-- The complete opcode map, row for row (R85). -/
def opcodeMap : List OpcodeRow :=
  [ ⟨"NOP", .z, 0xFFFF#16, 0x0000#16⟩,
    ⟨"CLS", .z, 0xFFFF#16, 0x00E0#16⟩,
    ⟨"RET", .z, 0xFFFF#16, 0x00EE#16⟩,
    ⟨"JMP nnn", .a, 0xF000#16, 0x1000#16⟩,
    ⟨"CALL nnn", .a, 0xF000#16, 0x2000#16⟩,
    ⟨"SKIP-EQ Vx,nn", .xi, 0xF000#16, 0x3000#16⟩,
    ⟨"SKIP-NEQ Vx,nn", .xi, 0xF000#16, 0x4000#16⟩,
    ⟨"SKIP-EQ Vx,Vy", .xy, 0xF00F#16, 0x5000#16⟩,
    ⟨"SET Vx,nn", .xi, 0xF000#16, 0x6000#16⟩,
    ⟨"ADD Vx,nn", .xi, 0xF000#16, 0x7000#16⟩,
    ⟨"COPY Vx,Vy", .xy, 0xF00F#16, 0x8000#16⟩ ]

/-- `w` selects the row: `w AND mask = match` (R85). -/
def OpcodeRow.selects (r : OpcodeRow) (w : Word) : Bool :=
  w &&& r.mask == r.pattern

/-- The word is an instruction: some row selects it (R86). -/
def wordWellFormed (w : Word) : Bool :=
  opcodeMap.any (·.selects w)

/-- Which row of the opcode map an instruction belongs to, in the map's order. -/
def Instr.rowIndex : Instr → Fin 11
  | .nop => 0
  | .cls => 1
  | .ret => 2
  | .jmp _ => 3
  | .call _ => 4
  | .skipEqImm _ _ => 5
  | .skipNeqImm _ _ => 6
  | .skipEqReg _ _ => 7
  | .setImm _ _ => 8
  | .addImm _ _ => 9
  | .copyReg _ _ => 10

/-- The row of the opcode map an instruction belongs to. -/
def Instr.row (i : Instr) : OpcodeRow :=
  opcodeMap[i.rowIndex]

end Sys2Proof
end

