-- ==== Sys2Proof/Decode.lean ====
section
/-! DEFINITION. The decoder (spec/30_encoding.md R80 to R86, spec/40_step.md R104, R105), the
encoder written from the same patterns, and the assembler spelling (R88). -/

namespace Sys2Proof

/-- `hi ‖ lo`: the instruction word of two bytes, the first in memory being the high one (R55). -/
def joinBytes (hi lo : Byte) : Word := hi ++ lo

/-- The byte of a word that stands at the lower address (R55). -/
def hiByte (w : Word) : Byte := w.extractLsb' 8 8

/-- The byte of a word that stands at the higher address (R55). -/
def loByte (w : Word) : Byte := w.extractLsb' 0 8

/-- `n3 = w[15:12]`, the opcode family (R82). -/
def fieldN3 (w : Word) : Nibble := w.extractLsb' 12 4

/-- `n2 = w[11:8]` (R82). -/
def fieldN2 (w : Word) : Nibble := w.extractLsb' 8 4

/-- `n1 = w[7:4]` (R82). -/
def fieldN1 (w : Word) : Nibble := w.extractLsb' 4 4

/-- `n0 = w[3:0]` (R82). -/
def fieldN0 (w : Word) : Nibble := w.extractLsb' 0 4

/-- `x = n2`, a register index (R82). -/
def fieldX (w : Word) : Nibble := fieldN2 w

/-- `y = n1`, a register index (R82). -/
def fieldY (w : Word) : Nibble := fieldN1 w

/-- `nn = w[7:0]`, the immediate (R82, R84). -/
def fieldNN (w : Word) : Byte := w.extractLsb' 0 8

/-- `nnn = w[11:0]`, the address (R82, R84). -/
def fieldNNN (w : Word) : Addr12 := w.extractLsb' 0 12

/-- The three words of family 0 (R105, R110 to R112); every other word of it is unimplemented. -/
def decodeFamily0 (n2 n1 n0 : Nibble) : Option Instr :=
  if n2 = 0x0#4 ∧ n1 = 0x0#4 ∧ n0 = 0x0#4 then some .nop
  else if n2 = 0x0#4 ∧ n1 = 0xE#4 ∧ n0 = 0x0#4 then some .cls
  else if n2 = 0x0#4 ∧ n1 = 0xE#4 ∧ n0 = 0xE#4 then some .ret
  else none

/-- The match of R105 on the four nibbles, the family first; `none` for a word of no pattern (R86). -/
def decodeWord (w : Word) : Option Instr :=
  match fieldN3 w with
  | 0x0#4 => decodeFamily0 (fieldN2 w) (fieldN1 w) (fieldN0 w)
  | 0x1#4 => some (.jmp (fieldNNN w))
  | 0x2#4 => some (.call (fieldNNN w))
  | 0x3#4 => some (.skipEqImm (fieldX w) (fieldNN w))
  | 0x4#4 => some (.skipNeqImm (fieldX w) (fieldNN w))
  | 0x5#4 => if fieldN0 w = 0x0#4 then some (.skipEqReg (fieldX w) (fieldY w)) else none
  | 0x6#4 => some (.setImm (fieldX w) (fieldNN w))
  | 0x7#4 => some (.addImm (fieldX w) (fieldNN w))
  | 0x8#4 => if fieldN0 w = 0x0#4 then some (.copyReg (fieldX w) (fieldY w)) else none
  | _ => none

/-- What decoding a list of bytes gives; the two rejections are told apart by name. -/
inductive Decoded where
  /-- An instruction, and the bytes after it. -/
  | instr (i : Instr) (rest : List Byte)
  /-- A word that matches no pattern (R86, R150). -/
  | unimplemented (w : Word)
  /-- Fewer than the two bytes every instruction has (R80). -/
  | truncated
  deriving DecidableEq, Repr

/-- Decode the instruction at the head of the bytes. -/
def decode : List Byte → Decoded
  | hi :: lo :: rest =>
    match decodeWord (joinBytes hi lo) with
    | some i => .instr i rest
    | none => .unimplemented (joinBytes hi lo)
  | _ => .truncated

/-- The instruction word of an instruction, from the patterns of R83 and R85. -/
def encodeWord : Instr → Word
  | .nop => 0x0000#16
  | .cls => 0x00E0#16
  | .ret => 0x00EE#16
  | .jmp nnn => 0x1#4 ++ nnn
  | .call nnn => 0x2#4 ++ nnn
  | .skipEqImm x nn => 0x3#4 ++ x ++ nn
  | .skipNeqImm x nn => 0x4#4 ++ x ++ nn
  | .skipEqReg x y => 0x5#4 ++ x ++ y ++ 0x0#4
  | .setImm x nn => 0x6#4 ++ x ++ nn
  | .addImm x nn => 0x7#4 ++ x ++ nn
  | .copyReg x y => 0x8#4 ++ x ++ y ++ 0x0#4

/-- The two bytes of an instruction, in memory order (R55). -/
def encode (i : Instr) : List Byte :=
  [hiByte (encodeWord i), loByte (encodeWord i)]

/-- A table row's instruction whose bits are `w`, numbered as spec/opcode_table.json numbers them:
one 16-bit word, laid out high byte first and given to `decode`. Bits above `nbits` are zero. -/
def decodeTableWord (nbits w : Nat) : Option Instr :=
  let word : Word := BitVec.ofNat 16 (w % 2 ^ nbits)
  match decode [hiByte word, loByte word] with
  | .instr i _ => some i
  | .unimplemented _ => none
  | .truncated => none

/-- One hexadecimal digit in capitals, as R88 spells operands. -/
def hexDigit (n : Nibble) : Char :=
  if n.toNat < 10 then Char.ofNat (48 + n.toNat) else Char.ofNat (55 + n.toNat)

/-- `V` and one hexadecimal digit (R21, R88). -/
def registerName (x : Nibble) : String := String.ofList ['V', hexDigit x]

/-- An immediate as two hexadecimal digits (R88). -/
def immediateText (nn : Byte) : String :=
  String.ofList [hexDigit (nn.extractLsb' 4 4), hexDigit (nn.extractLsb' 0 4)]

/-- An address as three hexadecimal digits (R88). -/
def addressText (nnn : Addr12) : String :=
  String.ofList
    [hexDigit (nnn.extractLsb' 8 4), hexDigit (nnn.extractLsb' 4 4), hexDigit (nnn.extractLsb' 0 4)]

/-- The assembler spelling of an instruction (R88). -/
def assembly : Instr → String
  | .nop => "NOP"
  | .cls => "CLS"
  | .ret => "RET"
  | .jmp nnn => "JMP " ++ addressText nnn
  | .call nnn => "CALL " ++ addressText nnn
  | .skipEqImm x nn => "SKIP-EQ " ++ registerName x ++ "," ++ immediateText nn
  | .skipNeqImm x nn => "SKIP-NEQ " ++ registerName x ++ "," ++ immediateText nn
  | .skipEqReg x y => "SKIP-EQ " ++ registerName x ++ "," ++ registerName y
  | .setImm x nn => "SET " ++ registerName x ++ "," ++ immediateText nn
  | .addImm x nn => "ADD " ++ registerName x ++ "," ++ immediateText nn
  | .copyReg x y => "COPY " ++ registerName x ++ "," ++ registerName y

end Sys2Proof
end

