-- ==== Sys2Proof/Machine/Parameters.lean ====
section
/-! DEFINITION. The parameters of the standard machine: the defaults the spec decides for the four
values its source never states (spec/00_scope.md R8, decisions D1 to D4; log entries 1 to 4). -/

namespace Sys2Proof.Machine

/-- PRESUMED (log entry 4): the default font table, sixteen glyphs of five bytes (R66). -/
def standardFont : Vector Byte fontLen :=
  #v[ 0xF0, 0x90, 0x90, 0x90, 0xF0,  0x20, 0x60, 0x20, 0x20, 0x70,
      0xF0, 0x10, 0xF0, 0x80, 0xF0,  0xF0, 0x10, 0xF0, 0x10, 0xF0,
      0x90, 0x90, 0xF0, 0x10, 0x10,  0xF0, 0x80, 0xF0, 0x10, 0xF0,
      0xF0, 0x80, 0xF0, 0x90, 0xF0,  0xF0, 0x10, 0x20, 0x40, 0x40,
      0xF0, 0x90, 0xF0, 0x90, 0xF0,  0xF0, 0x90, 0xF0, 0x10, 0xF0,
      0xF0, 0x90, 0xF0, 0x90, 0x90,  0xE0, 0x90, 0xE0, 0x90, 0xE0,
      0xF0, 0x80, 0x80, 0x80, 0xF0,  0xE0, 0x90, 0x90, 0x90, 0xE0,
      0xF0, 0x80, 0xF0, 0x80, 0xF0,  0xF0, 0x80, 0xF0, 0x80, 0x80 ]

/-- The standard machine's parameters (R8). PRESUMED: log entries 1 (`MEM_SIZE`), 2 (`START_ADDR`),
3 (`KEY_COUNT`) and 4 (`FONT`). -/
def standard : Params where
  memSize := 4096
  startAddr := 0x200#16
  keyCount := 16
  font := standardFont

end Sys2Proof.Machine
end

