-- ==== Sys2Proof/Machine/State.lean ====
section
/-! DEFINITION. The machine state (spec/10_state.md R20), all of it as plain data, and its value
after reset (R41). Nothing is added to what the spec names. -/

namespace Sys2Proof.Machine

/-- A fault record (spec/60_exceptions.md R171): a sum type, so that a field that is not valid for
a kind does not exist. -/
inductive FaultRecord where
  /-- Code 1: the fetched word matches no pattern (R172). -/
  | unimplemented (word fetchPc : Word)
  /-- Code 2: CALL at `SP = 16` (R173). -/
  | stackOverflow (word fetchPc : Word)
  /-- Code 3: RET at `SP = 0` (R174). -/
  | stackUnderflow (word fetchPc : Word)
  /-- Code 4: a fetch at `addr`, outside memory (R175). -/
  | outOfRangeAddress (addr : Nat) (fetchPc : Word)
  deriving DecidableEq, Repr

/-- `MEM` (R42): the cells whose byte differs from the reset contents, addresses strictly rising.
What an unlisted address reads as is `resetByte` (Machine/Ops.lean). -/
abbrev Memory := List Host.Cell

/-- The aggregate of R20. -/
structure State where
  /-- `V[0] .. V[15]` (R21). -/
  v : Vector Byte nregs
  /-- `I`, the index register, which no instruction reads or writes (R25). -/
  i : Word
  /-- `PC` (R26). -/
  pc : Word
  /-- `MEM` (R42). -/
  mem : Memory
  /-- `STACK[0] .. STACK[15]` (R31). -/
  stack : Vector Word stackCap
  /-- `SP`, the depth pointer, `0 .. 16` (R31, R33; log entry 11). -/
  sp : Fin (stackCap + 1)
  /-- `DT`, the delay timer (R34). -/
  dt : Byte
  /-- `ST`, the sound timer (R34). -/
  st : Byte
  /-- `FB`, the grid of 2048 cells held row by row, `true` a lit cell (R35): `FB[cy * 64 + cx]` is
  column `cx` of row `cy` (`fbCell` in Machine/Ops.lean). -/
  fb : Vector (Vector Bool fbW) fbH
  /-- `KEYS[0] .. KEYS[KEY_COUNT - 1]`, `true` pressed (R43); its length is kept by `State.wf`. -/
  keys : List Bool
  /-- `FAULT`: `none` while the machine runs, the record once it is halted (R36). -/
  fault : Option FaultRecord
  deriving DecidableEq, Repr

/-- The framebuffer with every cell `false`. -/
def darkFb : Vector (Vector Bool fbW) fbH := Vector.replicate fbH (Vector.replicate fbW false)

/-- How a run that is to end at the fault latch ends (spec/60_exceptions.md R206). -/
inductive Fault where
  /-- The machine is halted and `record` is the latched fault. Raised by `stopAtLatch` of
  Safety.lean alone, never by `exec` or `step`: there a halted machine steps to itself (R177).
  Safe: the state it stops in is the halted state itself. -/
  | halted (record : FaultRecord)
  deriving DecidableEq, Repr

/-- Why a step has no meaning. Every operation of this machine is total (R206). -/
inductive Refusal where
  /-- The instruction's arm in `exec` has no meaning yet. Raised by no arm of this model. Safe: the
  model stops where the hardware goes on. -/
  | notModelled (mnemonic : String)
  deriving DecidableEq, Repr

/-- The state after construct and after reset of a machine with parameters `p` (R41, R211). Memory
lists nothing: every address reads as its reset contents. -/
def State.resetWith (p : Params) : State where
  v := Vector.replicate nregs 0
  i := 0
  pc := p.startAddr
  mem := []
  stack := Vector.replicate stackCap 0
  sp := 0
  dt := 0
  st := 0
  fb := darkFb
  keys := List.replicate p.keyCount false
  fault := none

/-- The standard machine right after reset. -/
def State.reset : State := State.resetWith standard

end Sys2Proof.Machine
end

