-- ==== Sys2Proof/Machine/Ops.lean ====
section
/-! DEFINITION. The named operations over memory, registers, the call stack, the framebuffer, the
keys and the timers, and raising a fault (spec/10_state.md, spec/20_memory.md,
spec/60_exceptions.md). There is no return from a fault (R179): only reset leaves it. -/

namespace Sys2Proof.Machine

/-! ### Memory -/

/-- What an address holds after reset: the font below 80, zero above (R41, R66). It is what an
unlisted address reads as. -/
def resetByte (p : Params) (a : Nat) : Byte :=
  if h : a < fontLen then p.font[a] else 0

/-- The listed byte at an address, if any. -/
def Memory.lookup : Memory → Nat → Option Byte
  | [], _ => none
  | (b, u) :: rest, a => if a = b then some u else Memory.lookup rest a

/-- `MEM[a]`, no bounds check (R12). -/
def Memory.peek (p : Params) (m : Memory) (a : Nat) : Byte :=
  (Memory.lookup m a).getD (resetByte p a)

/-- `MEM[a] <- v`, no bounds check. The result is in canonical form when `m` is: an entry that
would equal the reset contents is not listed. -/
def Memory.poke (p : Params) : Memory → Nat → Byte → Memory
  | [], a, v => if v = resetByte p a then [] else [(a, v)]
  | (b, u) :: rest, a, v =>
    if a < b then
      (if v = resetByte p a then (b, u) :: rest else (a, v) :: (b, u) :: rest)
    else if a = b then
      (if v = resetByte p a then rest else (a, v) :: rest)
    else (b, u) :: Memory.poke p rest a v

/-- The canonical form: every address below `MEM_SIZE`, addresses strictly rising, and no entry
equal to the reset contents. -/
def Memory.wf (p : Params) : Memory → Bool
  | [] => true
  | (a, v) :: rest =>
    decide (a < p.memSize) && decide (v ≠ resetByte p a) &&
      rest.all (fun c => decide (a < c.1)) && Memory.wf p rest

/-- The answer of a bounds-checked access: a result, or the refused address that the caller raises
`OutOfRangeAddress` with (R52, R53). -/
inductive Access (α : Type) where
  | ok (value : α)
  | outOfRange (addr : Nat)
  deriving DecidableEq, Repr

/-- `MemRead(addr, 1)` (R52). -/
def Memory.read (p : Params) (m : Memory) (a : Nat) : Access Byte :=
  if a < p.memSize then .ok (Memory.peek p m a) else .outOfRange a

/-- `MemWrite(addr, 1, v)` (R53). -/
def Memory.write (p : Params) (m : Memory) (a : Nat) (v : Byte) : Access Memory :=
  if a < p.memSize then .ok (Memory.poke p m a v) else .outOfRange a

/-- Write bytes from an address upward, one cell each (R193). -/
def Memory.pokeBytes (p : Params) : Memory → Nat → List Byte → Memory
  | m, _, [] => m
  | m, a, b :: bs => Memory.pokeBytes p (Memory.poke p m a b) (a + 1) bs

/-! ### The program counter and the general registers -/

/-- `PC <- v`, with no check of parity or range (R28, R122). -/
def setPc (a : Word) (s : State) : State := { s with pc := a }

/-- `PC <- (PC + 2) mod 65536`: the advance of R103 and the skip of R130 to R132 (R30). -/
def advance (s : State) : State := { s with pc := s.pc + 2 }

/-- `V[x]` (R21). -/
def readReg (x : Nibble) (s : State) : Byte := s.v[x.toNat]'x.isLt

/-- `V[x] <- b`; no register is special, `VF` included (R21, R23). -/
def writeReg (x : Nibble) (b : Byte) (s : State) : State :=
  { s with v := s.v.set x.toNat b x.isLt }

/-! ### The call stack -/

/-- Replace the call-stack slots. -/
def setStack (slots : Vector Word stackCap) (s : State) : State := { s with stack := slots }

/-- `SP <- k`. -/
def setSp (k : Fin (stackCap + 1)) (s : State) : State := { s with sp := k }

/-- `Push(v)` (R31): `none` is the refusal that raises StackOverflow, before any write. -/
def push (a : Word) (s : State) : Option State :=
  if h : s.sp.val < stackCap then
    some (setSp ⟨s.sp.val + 1, Nat.succ_lt_succ h⟩ (setStack (s.stack.set s.sp.val a h) s))
  else none

/-- `Pop()` (R32): the popped address and the state after, the slot keeping its value; `none` is
the refusal that raises StackUnderflow, before any change. -/
def pop (s : State) : Option (Word × State) :=
  match s.sp with
  | ⟨0, _⟩ => none
  | ⟨k + 1, h⟩ =>
    some (s.stack[k]'(Nat.lt_of_succ_lt_succ h), setSp ⟨k, Nat.lt_of_succ_lt h⟩ s)

/-! ### The framebuffer, the keys, the timers -/

/-- Every cell `false` (R111). -/
def clearFb (s : State) : State := { s with fb := darkFb }

/-- The index of the cell in column `cx` of row `cy` (R35, log entry 12). -/
def fbIndex (cx : Fin fbW) (cy : Fin fbH) : Fin fbCells :=
  ⟨cy.val * fbW + cx.val, by
    have hx := cx.isLt
    have hy := cy.isLt
    simp only [fbW, fbH, fbCells] at *
    omega⟩

/-- The row of cell `j`. -/
def fbRow (j : Fin fbCells) : Fin fbH :=
  ⟨j.val / fbW, by have hj := j.isLt; simp only [fbW, fbH, fbCells] at *; omega⟩

/-- The column of cell `j`. -/
def fbColumn (j : Fin fbCells) : Fin fbW :=
  ⟨j.val % fbW, Nat.mod_lt _ (by simp only [fbW]; omega)⟩

/-- `FB[j]` (R35). -/
def fbCell (s : State) (j : Fin fbCells) : Bool := (s.fb[fbRow j])[fbColumn j]

/-- The cell in column `cx` of row `cy` (R35). -/
def pixel (s : State) (cx : Fin fbW) (cy : Fin fbH) : Bool := (s.fb[cy])[cx]

/-- The 2048 cells `FB[0] .. FB[2047]` in order, as the renderer reads them (R196). -/
def fbCellList (s : State) : List Bool := s.fb.toList.flatMap (·.toList)

/-- `KEYS[k] <- b`; a `k` past the end changes nothing (its caller refuses it, R194). -/
def setKey (k : Nat) (b : Bool) (s : State) : State := { s with keys := s.keys.set k b }

/-- `DT <- d` and `ST <- t`. -/
def setTimers (d t : Byte) (s : State) : State := { s with dt := d, st := t }

/-- Replace the memory. -/
def setMem (m : Memory) (s : State) : State := { s with mem := m }

/-! ### Faults -/

/-- The fault codes of R170; 0 is no fault. -/
def faultCode : Option FaultRecord → Nat
  | none => 0
  | some (.unimplemented _ _) => 1
  | some (.stackOverflow _ _) => 2
  | some (.stackUnderflow _ _) => 3
  | some (.outOfRangeAddress _ _) => 4

/-- `fetch_pc` of a record (R171). -/
def FaultRecord.fetchedAt : FaultRecord → Word
  | .unimplemented _ f => f
  | .stackOverflow _ f => f
  | .stackUnderflow _ f => f
  | .outOfRangeAddress _ f => f

/-- `FAULT <- r`. -/
def latch (r : FaultRecord) (s : State) : State := { s with fault := some r }

/-- `raise K(info)` (R176): latch the record unless one is latched; the caller does nothing after
it, and what it wrote before stays. -/
def raise (r : FaultRecord) (s : State) : State :=
  match s.fault with
  | none => latch r s
  | some _ => s

/-- `fetch_pc` as an execute arm sees it: `PC` is then `(fetch_pc + 2) mod 65536` (R103), so it is
`PC - 2`. DEDUCED, log entry 7. -/
def fetchPcOf (s : State) : Word := s.pc - 2

/-! ### Fetch -/

/-- The two byte reads of R102, first at `PC`, then at `PC + 1` (not reduced modulo 65536), joined
high byte first (R55). -/
def fetch (p : Params) (s : State) : Access Word :=
  match Memory.read p s.mem s.pc.toNat with
  | .outOfRange a => .outOfRange a
  | .ok hi =>
    match Memory.read p s.mem (s.pc.toNat + 1) with
    | .outOfRange a => .outOfRange a
    | .ok lo => .ok (joinBytes hi lo)

end Sys2Proof.Machine
end

