-- ==== Sys2Proof/Machine/Operands.lean ====
section
/-! DEFINITION. The operand forms (spec/30_encoding.md R84): a register, an immediate byte, an
absolute address; and the conditions of the skips, which compare them (spec/43_skip.md). -/

namespace Sys2Proof.Machine

/-- The value of a register operand. -/
def registerOperand (x : Nibble) (s : State) : Byte := readReg x s

/-- The value of an immediate operand: the byte itself, never extended, shifted or scaled. -/
def immediateOperand (nn : Byte) : Byte := nn

/-- The target of an address operand: `zext_16(nnn)`, absolute and unscaled. -/
def addressOperand (nnn : Addr12) : Word := nnn.setWidth 16

/-- Skip the next instruction when `c` holds: two more on `PC`, which already holds `npc`. -/
def skipIf (c : Bool) (s : State) : State := if c then advance s else s

end Sys2Proof.Machine
end

