-- ==== Sys2Proof/Machine/Flags.lean ====
section
/-! DEFINITION. The machine has no flags, condition codes or predicates (spec/10_state.md R37), and
no instruction writes one, `VF` included (R23). What stands here is the rest of the arithmetic
(spec/44_register_ops.md R143): the register add, the register comparison, the timer decrement. -/

namespace Sys2Proof.Machine

/-- The register add: the sum modulo 256; the carry is discarded (R141). -/
def addBytes (a b : Byte) : Byte := BitVec.ofNat 8 ((a.toNat + b.toNat) % 256)

/-- The comparison of the skips: bit-for-bit equality of two bytes (R143). -/
def bytesEqual (a b : Byte) : Bool := a == b

/-- The timer decrement: a counter above zero goes down by one, zero stays (R160, R161). -/
def decrement (c : Byte) : Byte := if c = 0 then 0 else c - 1

end Sys2Proof.Machine
end

