-- ==== Sys2Proof/Machine/Family0.lean ====
section
/-! DEFINITION. NOP, CLS and RET (spec/41_family0_nop_cls_ret.md R110 to R112). An execute arm
starts with `PC = (fetch_pc + 2) mod 65536` (spec/40_step.md R103). -/

namespace Sys2Proof.Machine

/-- NOP (R110): no state change. -/
def execNop (s : State) : Host.Outcome State Fault Refusal :=
  .next s

/-- CLS (R111): every framebuffer cell `false`, whatever it held. -/
def execCls (s : State) : Host.Outcome State Fault Refusal :=
  .next (clearFb s)

/-- RET (R112): `PC` becomes the popped address, with no check and no further advance; at `SP = 0`
it raises StackUnderflow (R174). -/
def execRet (s : State) : Host.Outcome State Fault Refusal :=
  match pop s with
  | some (target, popped) => .next (setPc target popped)
  | none => .next (raise (.stackUnderflow (encodeWord .ret) (fetchPcOf s)) s)

end Sys2Proof.Machine
end

