-- ==== Sys2Proof/Machine/JumpCall.lean ====
section
/-! DEFINITION. JMP and CALL (spec/42_jump_call.md R120 to R122): the target is never checked. -/

namespace Sys2Proof.Machine

/-- JMP nnn (R120): the post-fetch counter is discarded. -/
def execJmp (nnn : Addr12) (s : State) : Host.Outcome State Fault Refusal :=
  .next (setPc (addressOperand nnn) s)

/-- CALL nnn (R121): push the post-fetch counter, then jump; at `SP = 16` it raises StackOverflow
(R173) and does not jump. -/
def execCall (nnn : Addr12) (s : State) : Host.Outcome State Fault Refusal :=
  match push s.pc s with
  | some pushed => .next (setPc (addressOperand nnn) pushed)
  | none => .next (raise (.stackOverflow (encodeWord (.call nnn)) (fetchPcOf s)) s)

end Sys2Proof.Machine
end

