-- ==== Sys2Proof/Machine/Register.lean ====
section
/-! DEFINITION. SET, ADD and COPY (spec/44_register_ops.md R140 to R142), the only instructions
that write a general register. -/

namespace Sys2Proof.Machine

/-- SET Vx,nn (R140). -/
def execSetImm (x : Nibble) (nn : Byte) (s : State) : Host.Outcome State Fault Refusal :=
  .next (writeReg x (immediateOperand nn) s)

/-- ADD Vx,nn (R141). -/
def execAddImm (x : Nibble) (nn : Byte) (s : State) : Host.Outcome State Fault Refusal :=
  .next (writeReg x (addBytes (registerOperand x s) (immediateOperand nn)) s)

/-- COPY Vx,Vy (R142): destination `x`, source `y`. -/
def execCopyReg (x y : Nibble) (s : State) : Host.Outcome State Fault Refusal :=
  .next (writeReg x (registerOperand y s) s)

end Sys2Proof.Machine
end

