-- ==== Sys2Proof/Machine/Skip.lean ====
section
/-! DEFINITION. The three conditional skips (spec/43_skip.md R130 to R132). They read registers and
write nothing but `PC`; the comparison is recorded nowhere. -/

namespace Sys2Proof.Machine

/-- SKIP-EQ Vx,nn (R130). -/
def execSkipEqImm (x : Nibble) (nn : Byte) (s : State) : Host.Outcome State Fault Refusal :=
  .next (skipIf (bytesEqual (registerOperand x s) (immediateOperand nn)) s)

/-- SKIP-NEQ Vx,nn (R131). -/
def execSkipNeqImm (x : Nibble) (nn : Byte) (s : State) : Host.Outcome State Fault Refusal :=
  .next (skipIf (!bytesEqual (registerOperand x s) (immediateOperand nn)) s)

/-- SKIP-EQ Vx,Vy (R132). -/
def execSkipEqReg (x y : Nibble) (s : State) : Host.Outcome State Fault Refusal :=
  .next (skipIf (bytesEqual (registerOperand x s) (registerOperand y s)) s)

end Sys2Proof.Machine
end

