-- ==== Sys2Proof/Machine/Dispatch.lean ====
section
/-! DEFINITION. `exec`: the match of spec/40_step.md R105, one arm per instruction. The last line of
R105, "otherwise", is no instruction: `instructionStep` (Machine/Cycle.lean) raises it. -/

namespace Sys2Proof.Machine

def exec (i : Instr) (s : State) : Host.Outcome State Fault Refusal :=
  match i with
  | .nop => Sys2Proof.Machine.execNop s
  | .cls => Sys2Proof.Machine.execCls s
  | .ret => Sys2Proof.Machine.execRet s
  | .jmp nnn => Sys2Proof.Machine.execJmp nnn s
  | .call nnn => Sys2Proof.Machine.execCall nnn s
  | .skipEqImm x nn => Sys2Proof.Machine.execSkipEqImm x nn s
  | .skipNeqImm x nn => Sys2Proof.Machine.execSkipNeqImm x nn s
  | .skipEqReg x y => Sys2Proof.Machine.execSkipEqReg x y s
  | .setImm x nn => Sys2Proof.Machine.execSetImm x nn s
  | .addImm x nn => Sys2Proof.Machine.execAddImm x nn s
  | .copyReg x y => Sys2Proof.Machine.execCopyReg x y s

end Sys2Proof.Machine
end

