-- ==== Sys2Proof/Machine/Cycle.lean ====
section
/-! DEFINITION. The instruction-step cycle (spec/40_step.md R100 to R108) of a machine with any
parameters, and the placing of one instruction where it fetches next. -/

namespace Sys2Proof.Machine

/-- `InstructionStep` (R100): a halted machine does not step (R101); a refused fetch raises
OutOfRangeAddress with `PC` unchanged (R102); otherwise `PC` advances (R103) and the word is
decoded and executed, or raises Unimplemented (R150). -/
def instructionStep (p : Params) (s : State) : Host.Outcome State Fault Refusal :=
  match s.fault with
  | some _ => .next s
  | none =>
    match fetch p s with
    | .outOfRange a => .next (raise (.outOfRangeAddress a s.pc) s)
    | .ok w =>
      match decodeWord w with
      | some i => exec i (advance s)
      | none => .next (raise (.unimplemented w s.pc) (advance s))

/-- `s` with the word `w` where the next instruction-step fetches it. `PC` is kept when both bytes
at it are in memory, else it becomes `START_ADDR`, and a latched fault is cleared, since a halted
machine fetches nothing. DESIGN CHOICE, log entry 9: it stands for the host's load. -/
def placeWord (p : Params) (w : Word) (s : State) : State :=
  let target : Word := if s.pc.toNat + 1 < p.memSize then s.pc else p.startAddr
  { s with
    pc := target
    mem := Memory.poke p (Memory.poke p s.mem target.toNat (hiByte w)) (target.toNat + 1) (loByte w)
    fault := none }

end Sys2Proof.Machine
end

