-- ==== Sys2Proof/Machine/Step.lean ====
section
/-! DEFINITION. One step of the standard machine: one instruction-step (spec/40_step.md R100). The
host's other operations are in Machine/Ports.lean (log entry 8). -/

namespace Sys2Proof.Machine

/-- One instruction-step of the standard machine. -/
def step (s : State) : Host.Outcome State Fault Refusal :=
  instructionStep standard s

/-- `s` with the table row's word where `step` fetches its next instruction (log entry 9). -/
def State.withFetchWord (s : State) (nbits w : Nat) : State :=
  placeWord standard (BitVec.ofNat 16 (w % 2 ^ nbits)) s

end Sys2Proof.Machine
end

