-- ==== Sys2Proof/Machine/Timer.lean ====
section
/-! DEFINITION. The timer-step and its audible cue (spec/46_timer_step.md R160 to R165). -/

namespace Sys2Proof.Machine

/-- The cue of a timer-step: `true` exactly when the sound counter holds 1 before the decrement. -/
def cueOf (s : State) : Bool := s.st == 1

/-- The effect of a timer-step on a running machine (R160): each counter on its own. -/
def tick (s : State) : State := setTimers (decrement s.dt) (decrement s.st) s

/-- The state after `TimerStep` (R160); a halted machine keeps its state (R165). -/
def timerStep (s : State) : State :=
  match s.fault with
  | some _ => s
  | none => tick s

/-- The cue `TimerStep` delivers: none from a halted machine (R165). It is an output and no state
(R163). -/
def timerCue (s : State) : Bool :=
  match s.fault with
  | some _ => false
  | none => cueOf s

end Sys2Proof.Machine
end

