-- ==== Sys2Proof/Machine/Ports.lean ====
section
/-! DEFINITION. The host interface (spec/60_exceptions.md R190 to R199): every operation the host
may call, each one atomic transition of the whole state with what it reports, and a run as a list
of operations in the order the host issued them. -/

namespace Sys2Proof.Machine

/-- Which counter a host timer write names (R195). -/
inductive TimerName where
  | delay
  | sound
  deriving DecidableEq, Repr

/-- The operations of R190. Two at once are no event of the model (R199, log entry 14). -/
inductive Op where
  /-- `Construct()` (R191). -/
  | construct
  /-- `Reset()` (R192). -/
  | reset
  /-- `InstructionStep()` (R100). -/
  | instructionStep
  /-- `TimerStep()` (R160). -/
  | timerStep
  /-- `HostLoad(bytes)` (R193). -/
  | load (bytes : List Byte)
  /-- `HostSetKey(k, b)` (R194). -/
  | setKey (k : Nat) (pressed : Bool)
  /-- `HostSetTimer(t, v)` (R195). -/
  | setTimer (t : TimerName) (value : Byte)
  /-- `HostReadFramebuffer()` (R196). -/
  | readFramebuffer
  /-- `HostObserve` (R197). -/
  | observe
  deriving DecidableEq, Repr

/-- What an operation gives back to the host (R107, R198). -/
inductive Report where
  /-- It completed; for an instruction-step, an instruction ran. -/
  | ok
  /-- The instruction-step raised this fault. -/
  | raised (r : FaultRecord)
  /-- The machine was halted already, by this fault (R101, R165). -/
  | halted (r : FaultRecord)
  /-- The timer-step's cue (R163). -/
  | cue (audible : Bool)
  /-- A host write refused with no state change (R193, R194). -/
  | refused
  /-- The 2048 cells, row-major (R196). -/
  | cells (cells : List Bool)
  /-- The whole state (R197). -/
  | observed (s : State)
  deriving DecidableEq, Repr

/-- The report of an instruction-step from `before` to `after`, read off `FAULT` (R107). -/
def stepReport (before after : State) : Report :=
  match before.fault, after.fault with
  | some r, _ => .halted r
  | none, some r => .raised r
  | none, none => .ok

/-- The report of a timer-step from `s` (R160, R165). -/
def timerReport (s : State) : Report :=
  match s.fault with
  | some r => .halted r
  | none => .cue (cueOf s)

/-- `Reset()` and `Construct()`: the reset state whatever the state before (R210, R211). -/
def hostReset (p : Params) (_ : State) : State := State.resetWith p

/-- `HostLoad(bytes)` (R193): the whole range is checked before any write. -/
def hostLoad (p : Params) (bytes : List Byte) (s : State) : Option State :=
  if p.startAddr.toNat + bytes.length ≤ p.memSize then
    some (setMem (Memory.pokeBytes p s.mem p.startAddr.toNat bytes) s)
  else none

/-- `HostSetKey(k, b)` (R194). -/
def hostSetKey (p : Params) (k : Nat) (pressed : Bool) (s : State) : Option State :=
  if k < p.keyCount then some (setKey k pressed s) else none

/-- `HostSetTimer(t, v)` (R195). -/
def hostSetTimer (t : TimerName) (value : Byte) (s : State) : State :=
  match t with
  | .delay => setTimers value s.st s
  | .sound => setTimers s.dt value s

/-- The state and report of a host write that may be refused. -/
def writeReport (s : State) : Option State → State × Report
  | some t => (t, .ok)
  | none => (s, .refused)

/-- One operation: the state after and what the host gets back. -/
def perform (p : Params) (op : Op) (s : State) : Host.Outcome (State × Report) Fault Refusal :=
  match op with
  | .construct => .next (hostReset p s, .ok)
  | .reset => .next (hostReset p s, .ok)
  | .instructionStep =>
    match instructionStep p s with
    | .next t => .next (t, stepReport s t)
    | .fault r => .fault r
    | .refused r => .refused r
  | .timerStep => .next (timerStep s, timerReport s)
  | .load bytes => .next (writeReport s (hostLoad p bytes s))
  | .setKey k pressed => .next (writeReport s (hostSetKey p k pressed s))
  | .setTimer t value => .next (hostSetTimer t value s, .ok)
  | .readFramebuffer => .next (s, .cells (fbCellList s))
  | .observe => .next (s, .observed s)

/-- A run: the operations one after another, each seeing the state the one before it left (R62),
with the reports in order; the cues of a run are among them (R163, log entry 16). -/
def runOps (p : Params) : List Op → State → Host.Outcome (State × List Report) Fault Refusal
  | [], s => .next (s, [])
  | op :: ops, s =>
    match perform p op s with
    | .fault r => .fault r
    | .refused r => .refused r
    | .next (t, report) =>
      match runOps p ops t with
      | .next (u, reports) => .next (u, report :: reports)
      | .fault r => .fault r
      | .refused r => .refused r

end Sys2Proof.Machine
end

