-- ==== Sys2Proof/Safety.lean ====
section
/-! DEFINITION. What a good run is (spec/60_exceptions.md R206, log entry 5), what the host owes the
machine (R199, R214), and the invariants the claims use. -/

namespace Sys2Proof.Machine

/-- The machine is running: no fault is latched (R36). -/
abbrev State.running (s : State) : Prop := s.fault = none

/-- The instruction-step of a run that is to end at the latch (R206): it stops, by name, where the
machine is halted, and is the instruction-step elsewhere. -/
def stopAtLatch (p : Params) (s : State) : Host.Outcome State Fault Refusal :=
  match s.fault with
  | some r => .fault (.halted r)
  | none => instructionStep p s

/-- `k` instruction-steps that end at the latch: `next` is a run in which no step but the last
may have raised a fault. -/
def runToLatch (p : Params) : Nat → State → Host.Outcome State Fault Refusal
  | 0, s => .next s
  | k + 1, s =>
    match stopAtLatch p s with
    | .next t => runToLatch p k t
    | .fault r => .fault r
    | .refused r => .refused r

/-- `k` instruction-steps from `s` end well in `t`: none raised a fault. The faulted state is never
a successful end (R206). -/
abbrev endsWell (p : Params) (k : Nat) (s t : State) : Prop :=
  runToLatch p k s = .next t ∧ t.running

/-- Push a list of return addresses, first one first; `none` where a push is refused (R31). -/
def pushAll : List Word → State → Option State
  | [], s => some s
  | a :: rest, s =>
    match push a s with
    | some t => pushAll rest t
    | none => none

/-- Pop `n` return addresses, in the order they come off; `none` where a pop is refused (R32). -/
def popAll : Nat → State → Option (List Word × State)
  | 0, s => some ([], s)
  | n + 1, s =>
    match pop s with
    | some (a, t) =>
      match popAll n t with
      | some (rest, u) => some (a :: rest, u)
      | none => none
    | none => none

/-- The host's duty of R214: no load after an instruction-step, until the next reset or construct.
`stepped` says whether an instruction-step has been issued since the last one. The machine does not
enforce it (log entry 13). -/
def loadsFirst : Bool → List Op → Bool
  | _, [] => true
  | _, .construct :: ops => loadsFirst false ops
  | _, .reset :: ops => loadsFirst false ops
  | _, .instructionStep :: ops => loadsFirst true ops
  | stepped, .load _ :: ops => !stepped && loadsFirst stepped ops
  | stepped, .timerStep :: ops => loadsFirst stepped ops
  | stepped, .setKey _ _ :: ops => loadsFirst stepped ops
  | stepped, .setTimer _ _ :: ops => loadsFirst stepped ops
  | stepped, .readFramebuffer :: ops => loadsFirst stepped ops
  | stepped, .observe :: ops => loadsFirst stepped ops

/-- The operation is a reset or a construct, the only ways out of the halted condition (R177). -/
def Op.resets : Op → Bool
  | .construct => true
  | .reset => true
  | .instructionStep => false
  | .timerStep => false
  | .load _ => false
  | .setKey _ _ => false
  | .setTimer _ _ => false
  | .readFramebuffer => false
  | .observe => false

/-- The representation of a state is in order: memory is in canonical form and there are `KEY_COUNT`
keys (R42, R43). -/
def State.wf (p : Params) (s : State) : Bool :=
  Memory.wf p s.mem && decide (s.keys.length = p.keyCount)

/-- The latched record says truly what stopped the machine and what that left: `PC` at or past the
faulting fetch, and the condition that raises the kind (R172 to R175). -/
def faultTruthful (p : Params) (s : State) : Prop :=
  match s.fault with
  | none => True
  | some (.unimplemented w f) => decodeWord w = none ∧ s.pc = f + 2
  | some (.stackOverflow w f) =>
    (∃ nnn, decodeWord w = some (.call nnn)) ∧ s.sp.val = stackCap ∧ s.pc = f + 2
  | some (.stackUnderflow w f) => w = 0x00EE#16 ∧ s.sp.val = 0 ∧ s.pc = f + 2
  | some (.outOfRangeAddress a f) =>
    p.memSize ≤ a ∧ a ≤ 65536 ∧ s.pc = f ∧
      (a = f.toNat ∨ (a = f.toNat + 1 ∧ f.toNat < p.memSize))

/-- The invariant of the whole machine. Beside the representation (`State.wf`) and the fault record
(`faultTruthful`): the index register stays 0 (R25), no cell is ever lit (R35), a fetch address
stays within reach of a jump or of running off the end of memory (R30), and every call-stack slot
holds an address an instruction can be followed by. -/
structure State.Inv (p : Params) (s : State) : Prop where
  wf : s.wf p = true
  fault : faultTruthful p s
  index : s.i = 0
  dark : s.fb = darkFb
  pc : s.pc.toNat ≤ max 4095 (p.memSize + 2)
  stack : ∀ (k : Nat) (h : k < stackCap), (s.stack[k]'h).toNat ≤ p.memSize

end Sys2Proof.Machine
end

