-- ==== Sys2Proof/Certificates/Slice0/Obligations.lean ====
section
/-! DEFINITION. The statements for the provers. Each docstring names the rule of the spec it
formalises; a clause that rests on the model's own choice, or on an inference or a decision the spec
marks as its own, is named as such. -/

open Sys2Proof Sys2Proof.Machine

/-- The table of R41, row by row. The row `FAULT = None` is the spec's own decision D17. -/
def Obligations.ResetGivesEveryFieldItsValue : Prop :=
  ∀ p : Params,
    (State.resetWith p).pc = p.startAddr ∧
    (∀ x, readReg x (State.resetWith p) = 0) ∧
    (State.resetWith p).i = 0 ∧
    (∀ (a : Nat) (h : a < fontLen), Memory.peek p (State.resetWith p).mem a = p.font[a]) ∧
    (∀ a, fontLen ≤ a → Memory.peek p (State.resetWith p).mem a = 0) ∧
    (∀ (k : Nat) (h : k < stackCap), (State.resetWith p).stack[k] = 0) ∧
    (State.resetWith p).sp.val = 0 ∧
    (State.resetWith p).dt = 0 ∧ (State.resetWith p).st = 0 ∧
    (∀ j, fbCell (State.resetWith p) j = false) ∧
    (State.resetWith p).keys.length = p.keyCount ∧
    (∀ (k : Nat) (b : Bool), (State.resetWith p).keys[k]? = some b → b = false) ∧
    (State.resetWith p).fault = none

/-- R192, and R191 and R210 for the state construct gives. That construct replaces the state of an
existing machine is the model's choice, log entry 17. -/
def Obligations.ResetAndConstructIgnoreThePriorState : Prop :=
  ∀ (p : Params) (s : State),
    perform p .reset s = .next (State.resetWith p, .ok) ∧
    perform p .construct s = .next (State.resetWith p, .ok)

/-- The start of the invariant of `StepKeepsTheMachineInvariant`. -/
def Obligations.ResetMeetsTheMachineInvariant : Prop :=
  ∀ p : Params, p.Legal → (State.resetWith p).Inv p

/-- Every instruction term is well formed (R83), so there is no premise. -/
def Obligations.DecodeOfEncodeIsTheInstruction : Prop :=
  ∀ (i : Instr) (rest : List Byte),
    decodeWord (encodeWord i) = some i ∧ (encode i).length = 2 ∧
    decode (encode i ++ rest) = .instr i rest

/-- The other direction of the round trip. -/
def Obligations.EncodeOfDecodeIsTheWord : Prop :=
  ∀ (w : Word) (i : Instr), decodeWord w = some i → encodeWord i = w

/-- R85 and R86. That the rows are disjoint is the spec's own inference, marked derived there. -/
def Obligations.EveryWordSelectsOneRowOrIsUnimplemented : Prop :=
  ∀ w : Word,
    opcodeMap.filter (·.selects w) =
      match decodeWord w with
      | some i => [i.row]
      | none => []

/-- The patterns of R151, which the spec marks as derived; its counts are not stated here. -/
def Obligations.UnimplementedWordsAreTheListedPatterns : Prop :=
  ∀ w : Word,
    decodeWord w = none ↔
      (fieldN3 w = 0 ∧ w ≠ 0x0000#16 ∧ w ≠ 0x00E0#16 ∧ w ≠ 0x00EE#16) ∨
      (fieldN3 w = 5 ∧ fieldN0 w ≠ 0) ∨ (fieldN3 w = 8 ∧ fieldN0 w ≠ 0) ∨
      9 ≤ (fieldN3 w).toNat

/-- Vectors T-DEC-1 to T-DEC-33, a selection. -/
def Obligations.ListedWordsDecodeAsListed : Prop :=
  decodeWord 0x0000#16 = some .nop ∧ decodeWord 0x00E0#16 = some .cls ∧
  decodeWord 0x00EE#16 = some .ret ∧ decodeWord 0x10E0#16 = some (.jmp 0x0E0#12) ∧
  decodeWord 0x2ABC#16 = some (.call 0xABC#12) ∧
  decodeWord 0x3A05#16 = some (.skipEqImm 0xA#4 0x05#8) ∧
  decodeWord 0x4FFF#16 = some (.skipNeqImm 0xF#4 0xFF#8) ∧
  decodeWord 0x5AB0#16 = some (.skipEqReg 0xA#4 0xB#4) ∧
  decodeWord 0x6A05#16 = some (.setImm 0xA#4 0x05#8) ∧
  decodeWord 0x7A03#16 = some (.addImm 0xA#4 0x03#8) ∧
  decodeWord 0x8BA0#16 = some (.copyReg 0xB#4 0xA#4) ∧
  decodeWord 0x0001#16 = none ∧ decodeWord 0x00E1#16 = none ∧ decodeWord 0x0100#16 = none ∧
  decodeWord 0x5AB1#16 = none ∧ decodeWord 0x8BA4#16 = none ∧ decodeWord 0x9AB0#16 = none ∧
  decodeWord 0xFFFF#16 = none

/-- R82, as numbers. -/
def Obligations.FieldsAreTheStatedNumbers : Prop :=
  ∀ w : Word,
    w.toNat = (fieldN3 w).toNat * 4096 + (fieldN2 w).toNat * 256 + (fieldN1 w).toNat * 16 +
      (fieldN0 w).toNat ∧
    fieldX w = fieldN2 w ∧ fieldY w = fieldN1 w ∧
    (fieldNN w).toNat = (fieldN1 w).toNat * 16 + (fieldN0 w).toNat ∧
    (fieldNNN w).toNat =
      (fieldN2 w).toNat * 256 + (fieldN1 w).toNat * 16 + (fieldN0 w).toNat

/-- R52 and R53. `outOfRange a` is the refusal the caller raises `OutOfRangeAddress(a)` with; that
the fetch raises it is `FetchOutsideMemoryHaltsWithPcUnchanged`. -/
def Obligations.BoundedReadAfterWrite : Prop :=
  ∀ (p : Params) (m : Memory) (a : Nat) (v : Byte),
    (Memory.wf p m = true → a < p.memSize →
      ∃ m', Memory.write p m a v = .ok m' ∧ Memory.read p m' a = .ok v ∧
        ∀ b, b ≠ a → Memory.read p m' b = Memory.read p m b) ∧
    (a < p.memSize → Memory.read p m a = .ok (Memory.peek p m a)) ∧
    (p.memSize ≤ a →
      Memory.read p m a = .outOfRange a ∧ Memory.write p m a v = .outOfRange a)

/-- The model's choice of representation (log entry 10) loses and adds nothing. -/
def Obligations.CanonicalMemoriesThatReadAlikeAreEqual : Prop :=
  ∀ (p : Params) (m n : Memory), Memory.wf p m = true → Memory.wf p n = true →
    (∀ a, Memory.peek p m a = Memory.peek p n a) → m = n

/-- R55, for every `PC`; there is no alignment premise (R57). -/
def Obligations.FetchJoinsTwoBytesHighFirst : Prop :=
  ∀ (p : Params) (s : State), s.pc.toNat + 1 < p.memSize →
    ∃ w, fetch p s = .ok w ∧
      w.toNat = (Memory.peek p s.mem s.pc.toNat).toNat * 256 +
        (Memory.peek p s.mem (s.pc.toNat + 1)).toNat

/-- R102 and R175. The latch is the spec's decision D6, the unreduced second address its decision
D9. -/
def Obligations.FetchOutsideMemoryHaltsWithPcUnchanged : Prop :=
  ∀ (p : Params) (s : State), s.running →
    (p.memSize ≤ s.pc.toNat →
      instructionStep p s =
        .next { s with fault := some (.outOfRangeAddress s.pc.toNat s.pc) }) ∧
    (s.pc.toNat + 1 = p.memSize →
      instructionStep p s =
        .next { s with fault := some (.outOfRangeAddress (s.pc.toNat + 1) s.pc) })

/-- R100 to R105: fetch, advance before execute, decode, execute. -/
def Obligations.StepRunsTheDecodedInstruction : Prop :=
  (∀ (s : State) (i : Instr), s.running → s.pc.toNat + 1 < standard.memSize →
    decode [Memory.peek standard s.mem s.pc.toNat,
      Memory.peek standard s.mem (s.pc.toNat + 1)] = .instr i [] →
    step s = exec i { s with pc := s.pc + 2 }) ∧
  (∀ (p : Params) (s : State) (i : Instr), s.running → s.pc.toNat + 1 < p.memSize →
    decode [Memory.peek p s.mem s.pc.toNat, Memory.peek p s.mem (s.pc.toNat + 1)] =
      .instr i [] →
    instructionStep p s = exec i { s with pc := s.pc + 2 })

/-- R150 and R172, with "matches none of the eleven patterns" said by mask and match. -/
def Obligations.UnimplementedWordHaltsAfterTheAdvance : Prop :=
  ∀ (p : Params) (s : State) (w : Word), s.running → fetch p s = .ok w →
    wordWellFormed w = false →
    instructionStep p s =
      .next { s with pc := s.pc + 2, fault := some (.unimplemented w s.pc) }

/-- R101, R165 and R177, the spec's decision D6. -/
def Obligations.HaltedMachineIgnoresBothSteps : Prop :=
  ∀ (p : Params) (s : State) (r : FaultRecord), s.fault = some r →
    instructionStep p s = .next s ∧
    perform p .instructionStep s = .next (s, .halted r) ∧
    perform p .timerStep s = .next (s, .halted r)

/-- R206 and R108: the machine has no stuck state and no refused instruction. -/
def Obligations.EveryOperationAnswersANextState : Prop :=
  (∀ (i : Instr) (s : State), ∃ t, exec i s = .next t) ∧
  (∀ (p : Params) (s : State), ∃ t, instructionStep p s = .next t) ∧
  (∀ (p : Params) (op : Op) (s : State), ∃ t r, perform p op s = .next (t, r)) ∧
  (∀ (p : Params) (ops : List Op) (s : State),
    ∃ t rs, runOps p ops s = .next (t, rs) ∧ rs.length = ops.length)

/-- R106 and R178, both marked derived in the spec. -/
def Obligations.FaultingStepChangesOnlyPcAndFault : Prop :=
  ∀ (p : Params) (s t : State) (r : FaultRecord), s.running →
    instructionStep p s = .next t → t.fault = some r →
    t = { s with pc := t.pc, fault := some r } ∧ (t.pc = s.pc ∨ t.pc = s.pc + 2) ∧
      r.fetchedAt = s.pc

/-- R170 and R180 (marked derived in the spec). -/
def Obligations.StepFaultsExactlyOnItsCauses : Prop :=
  ∀ (p : Params) (s t : State), s.running → instructionStep p s = .next t →
    (t.fault ≠ none ↔
      p.memSize ≤ s.pc.toNat + 1 ∨
      ∃ w, fetch p s = .ok w ∧
        (decodeWord w = none ∨ ((∃ nnn, decodeWord w = some (.call nnn)) ∧ s.sp.val = 16) ∨
          (decodeWord w = some .ret ∧ s.sp.val = 0)))

/-- R108, R25 and R43, inferences the spec marks as derived. -/
def Obligations.StepReadsNeitherTimersNorKeysNorIndex : Prop :=
  ∀ (p : Params) (s t : State) (d e : Byte) (ks : List Bool) (ix : Word),
    instructionStep p s = .next t →
    instructionStep p { s with dt := d, st := e, keys := ks, i := ix } =
      .next { t with dt := d, st := e, keys := ks, i := ix }

/-- The idle idiom of R109 and R120. -/
def Obligations.JumpToSelfIsAFixedPoint : Prop :=
  ∀ (p : Params) (s : State) (nnn : Addr12), s.running → fetch p s = .ok (0x1#4 ++ nnn) →
    s.pc = nnn.setWidth 16 → instructionStep p s = .next s

/-- About the model's own placing of a word, log entry 9. -/
def Obligations.PlacedWordIsTheNextInstruction : Prop :=
  ∀ (s : State) (w : Word), Memory.wf standard s.mem = true →
    (s.withFetchWord 16 w.toNat).running ∧
    fetch standard (s.withFetchWord 16 w.toNat) = .ok w ∧
    (∀ i, decodeWord w = some i →
      step (s.withFetchWord 16 w.toNat) = exec i (advance (s.withFetchWord 16 w.toNat))) ∧
    (decodeWord w = none →
      step (s.withFetchWord 16 w.toNat) =
        .next { s.withFetchWord 16 w.toNat with
          pc := (s.withFetchWord 16 w.toNat).pc + 2
          fault := some (.unimplemented w (s.withFetchWord 16 w.toNat).pc) })

/-- R110. -/
def Obligations.NopChangesOnlyPc : Prop :=
  (∀ w : Word, decodeWord w = some .nop ↔ w = 0x0000#16) ∧
  (∀ s : State, exec .nop s = .next s) ∧
  (∀ (p : Params) (s : State), s.running → fetch p s = .ok 0x0000#16 →
    instructionStep p s = .next { s with pc := s.pc + 2 })

/-- R111, for every prior framebuffer. -/
def Obligations.ClsClearsEveryCell : Prop :=
  (∀ w : Word, decodeWord w = some .cls ↔ w = 0x00E0#16) ∧
  (∀ s : State, ∃ t, exec .cls s = .next t ∧ (∀ j, fbCell t j = false) ∧
    t = { s with fb := t.fb }) ∧
  (∀ (p : Params) (s : State), s.running → fetch p s = .ok 0x00E0#16 →
    ∃ t, instructionStep p s = .next t ∧ t.pc = s.pc + 2 ∧ ∀ j, fbCell t j = false)

/-- R112 and R174. -/
def Obligations.RetPopsThePcOrUnderflows : Prop :=
  (∀ w : Word, decodeWord w = some .ret ↔ w = 0x00EE#16) ∧
  (∀ (s : State) (k : Nat) (hk : k < stackCap), s.sp.val = k + 1 →
    ∃ t, exec .ret s = .next t ∧ t.pc = s.stack[k] ∧ t.sp.val = k ∧
      t = { s with pc := t.pc, sp := t.sp }) ∧
  (∀ (p : Params) (s : State), s.running → fetch p s = .ok 0x00EE#16 → s.sp.val = 0 →
    instructionStep p s =
      .next { s with pc := s.pc + 2, fault := some (.stackUnderflow 0x00EE#16 s.pc) })

/-- R120: absolute, unchecked, no post-jump advance. -/
def Obligations.JmpSetsPcToTheAddress : Prop :=
  (∀ (w : Word) (nnn : Addr12), decodeWord w = some (.jmp nnn) ↔
    w &&& 0xF000#16 = 0x1000#16 ∧ w.extractLsb' 0 12 = nnn) ∧
  (∀ (nnn : Addr12) (s : State), ∃ t, exec (.jmp nnn) s = .next t ∧
    t.pc.toNat = nnn.toNat ∧ t = { s with pc := t.pc })

/-- R121 and R173; the sixteenth push succeeds (90_conflicts.md C1). -/
def Obligations.CallPushesTheNextPcOrOverflows : Prop :=
  (∀ (w : Word) (nnn : Addr12), decodeWord w = some (.call nnn) ↔
    w &&& 0xF000#16 = 0x2000#16 ∧ w.extractLsb' 0 12 = nnn) ∧
  (∀ (nnn : Addr12) (s : State) (h : s.sp.val < stackCap),
    ∃ t, exec (.call nnn) s = .next t ∧ t.stack[s.sp.val] = s.pc ∧
      (∀ (k : Nat) (hk : k < stackCap), k ≠ s.sp.val → t.stack[k] = s.stack[k]) ∧
      t.sp.val = s.sp.val + 1 ∧ t.pc.toNat = nnn.toNat ∧
      t = { s with pc := t.pc, stack := t.stack, sp := t.sp }) ∧
  (∀ (p : Params) (s : State) (w : Word) (nnn : Addr12) (h : s.sp.val < stackCap), s.running →
    fetch p s = .ok w → decodeWord w = some (.call nnn) →
    ∃ t, instructionStep p s = .next t ∧ t.stack[s.sp.val] = s.pc + 2 ∧
      t.sp.val = s.sp.val + 1 ∧ t.pc.toNat = nnn.toNat) ∧
  (∀ (p : Params) (s : State) (w : Word), s.running → fetch p s = .ok w →
    w &&& 0xF000#16 = 0x2000#16 → s.sp.val = 16 →
    instructionStep p s =
      .next { s with pc := s.pc + 2, fault := some (.stackOverflow w s.pc) })

/-- R130; `PC` already holds `npc` when the arm starts. -/
def Obligations.SkipEqImmSkipsOnEqual : Prop :=
  (∀ (w : Word) (x : Nibble) (nn : Byte), decodeWord w = some (.skipEqImm x nn) ↔
    w &&& 0xF000#16 = 0x3000#16 ∧
    w.extractLsb' 8 4 = x ∧ w.extractLsb' 0 8 = nn) ∧
  (∀ (x : Nibble) (nn : Byte) (s : State),
    exec (.skipEqImm x nn) s =
      .next { s with pc := if readReg x s = nn then s.pc + 2 else s.pc }) ∧
  (∀ (p : Params) (s : State) (w : Word) (x : Nibble) (nn : Byte),
    s.running → fetch p s = .ok w → decodeWord w = some (.skipEqImm x nn) →
    instructionStep p s =
      .next { s with pc := if readReg x s = nn then s.pc + 4 else s.pc + 2 })

/-- R131, with its sentence that exactly one of the two immediate skips skips. -/
def Obligations.SkipNeqImmSkipsOnDifferent : Prop :=
  (∀ (w : Word) (x : Nibble) (nn : Byte), decodeWord w = some (.skipNeqImm x nn) ↔
    w &&& 0xF000#16 = 0x4000#16 ∧
    w.extractLsb' 8 4 = x ∧ w.extractLsb' 0 8 = nn) ∧
  (∀ (x : Nibble) (nn : Byte) (s : State),
    exec (.skipNeqImm x nn) s =
      .next { s with pc := if readReg x s ≠ nn then s.pc + 2 else s.pc }) ∧
  (∀ (p : Params) (s : State) (w : Word) (x : Nibble) (nn : Byte),
    s.running → fetch p s = .ok w → decodeWord w = some (.skipNeqImm x nn) →
    instructionStep p s =
      .next { s with pc := if readReg x s ≠ nn then s.pc + 4 else s.pc + 2 }) ∧
  (∀ (x : Nibble) (nn : Byte) (s t u : State),
    exec (.skipEqImm x nn) s = .next t → exec (.skipNeqImm x nn) s = .next u →
    (t.pc = s.pc + 2 ↔ ¬ u.pc = s.pc + 2))

/-- R132. -/
def Obligations.SkipEqRegSkipsOnEqual : Prop :=
  (∀ (w : Word) (x y : Nibble), decodeWord w = some (.skipEqReg x y) ↔
    w &&& 0xF00F#16 = 0x5000#16 ∧
    w.extractLsb' 8 4 = x ∧ w.extractLsb' 4 4 = y) ∧
  (∀ (x y : Nibble) (s : State),
    exec (.skipEqReg x y) s =
      .next { s with pc := if readReg x s = readReg y s then s.pc + 2 else s.pc }) ∧
  (∀ (p : Params) (s : State) (w : Word) (x y : Nibble),
    s.running → fetch p s = .ok w → decodeWord w = some (.skipEqReg x y) →
    instructionStep p s =
      .next { s with pc := if readReg x s = readReg y s then s.pc + 4 else s.pc + 2 })

/-- R140. -/
def Obligations.SetLoadsTheImmediate : Prop :=
  (∀ (w : Word) (x : Nibble) (nn : Byte), decodeWord w = some (.setImm x nn) ↔
    w &&& 0xF000#16 = 0x6000#16 ∧
    w.extractLsb' 8 4 = x ∧ w.extractLsb' 0 8 = nn) ∧
  (∀ (x : Nibble) (nn : Byte) (s : State), ∃ t, exec (.setImm x nn) s = .next t ∧
    readReg x t = nn ∧
    (∀ r, r ≠ x → readReg r t = readReg r s) ∧ t = { s with v := t.v })

/-- R141 (and 90_conflicts.md C10): the sum is defined in every case and `VF` is not written. -/
def Obligations.AddWrapsModulo256 : Prop :=
  (∀ (w : Word) (x : Nibble) (nn : Byte), decodeWord w = some (.addImm x nn) ↔
    w &&& 0xF000#16 = 0x7000#16 ∧
    w.extractLsb' 8 4 = x ∧ w.extractLsb' 0 8 = nn) ∧
  (∀ (x : Nibble) (nn : Byte) (s : State), ∃ t, exec (.addImm x nn) s = .next t ∧
    (readReg x t).toNat = ((readReg x s).toNat + nn.toNat) % 256 ∧
    (∀ r, r ≠ x → readReg r t = readReg r s) ∧ t = { s with v := t.v })

/-- R142: destination `x`, source `y`, `x = y` included. -/
def Obligations.CopyMovesTheRegister : Prop :=
  (∀ (w : Word) (x y : Nibble), decodeWord w = some (.copyReg x y) ↔
    w &&& 0xF00F#16 = 0x8000#16 ∧
    w.extractLsb' 8 4 = x ∧ w.extractLsb' 4 4 = y) ∧
  (∀ (x y : Nibble) (s : State), ∃ t, exec (.copyReg x y) s = .next t ∧
    readReg x t = readReg y s ∧
    (∀ r, r ≠ x → readReg r t = readReg r s) ∧ t = { s with v := t.v })

/-- R51, R68 and R153: no instruction in scope stores, and none reaches these fields. -/
def Obligations.NoInstructionTouchesMemoryTimersKeysIndex : Prop :=
  ∀ (i : Instr) (s t : State), exec i s = .next t →
    (∀ (p : Params) (a : Nat), Memory.read p t.mem a = Memory.read p s.mem a) ∧
    t.i = s.i ∧ t.dt = s.dt ∧ t.st = s.st ∧ t.keys = s.keys

/-- R22, marked derived in the spec; `VF` is one of the registers (R23). -/
def Obligations.OnlySetAddCopyWriteTheirRegister : Prop :=
  ∀ (i : Instr) (s t : State) (r : Nibble), exec i s = .next t → readReg r t ≠ readReg r s →
    (∃ nn, i = .setImm r nn) ∨ (∃ nn, i = .addImm r nn) ∨ ∃ y, i = .copyReg r y

/-- The table of R20 and R27, read as a frame. -/
def Obligations.OnlyTheNamedInstructionsWriteStackFbFault : Prop :=
  ∀ (i : Instr) (s t : State), exec i s = .next t →
    (∀ (k : Nat) (hk : k < stackCap), t.stack[k] ≠ s.stack[k] →
      k = s.sp.val ∧ ∃ nnn, i = .call nnn) ∧
    (t.sp ≠ s.sp → i = .ret ∨ ∃ nnn, i = .call nnn) ∧
    (t.fb ≠ s.fb → i = .cls) ∧
    (t.fault ≠ s.fault →
      (i = .ret ∧ s.sp.val = 0) ∨ ((∃ nnn, i = .call nnn) ∧ s.sp.val = 16)) ∧
    (t.pc ≠ s.pc → i = .ret ∨ (∃ nnn, i = .jmp nnn) ∨ (∃ nnn, i = .call nnn) ∨
      (∃ x nn, i = .skipEqImm x nn) ∨ (∃ x nn, i = .skipNeqImm x nn) ∨
      ∃ x y, i = .skipEqReg x y)

/-- The push of R31; that `SP` may reach 16 is 90_conflicts.md C1. -/
def Obligations.PushWritesTheSlotAtTheDepth : Prop :=
  ∀ (a : Word) (s : State),
    (∀ h : s.sp.val < stackCap, ∃ t, push a s = some t ∧ t.stack[s.sp.val] = a ∧
      (∀ (k : Nat) (hk : k < stackCap), k ≠ s.sp.val → t.stack[k] = s.stack[k]) ∧
      t.sp.val = s.sp.val + 1 ∧ t = { s with stack := t.stack, sp := t.sp }) ∧
    (s.sp.val = stackCap → push a s = none)

/-- The pop of R32; that the slot keeps its value is the spec's inference (decision D23). -/
def Obligations.PopReadsTheSlotBelowTheDepth : Prop :=
  ∀ s : State,
    (∀ (k : Nat) (hk : k < stackCap), s.sp.val = k + 1 →
      ∃ t, pop s = some (s.stack[k], t) ∧ t.sp.val = k ∧ t = { s with sp := t.sp }) ∧
    (s.sp.val = 0 → pop s = none)

/-- The source's property S-3. -/
def Obligations.CallThenRetReturnsPastTheCall : Prop :=
  ∀ (nnn : Addr12) (s t : State), s.sp.val < stackCap → exec (.call nnn) s = .next t →
    exec .ret (advance t) = .next { s with stack := t.stack }

/-- The source's property S-4, for every depth and every list. -/
def Obligations.NestedPushesUnwindInReverse : Prop :=
  ∀ (as : List Word) (s : State), s.sp.val + as.length ≤ stackCap →
    ∃ t, pushAll as s = some t ∧ t.sp.val = s.sp.val + as.length ∧
      popAll as.length t = some (as.reverse, { s with stack := t.stack })

/-- R160. -/
def Obligations.TimerStepDecrementsAndCues : Prop :=
  (∀ (p : Params) (s : State), s.running →
    ∃ t c, perform p .timerStep s = .next (t, .cue c) ∧
      t.dt.toNat = s.dt.toNat - 1 ∧ t.st.toNat = s.st.toNat - 1 ∧
      (c = true ↔ s.st.toNat = 1) ∧ t = { s with dt := t.dt, st := t.st }) ∧
  (∀ (p : Params) (s : State) (r : FaultRecord), s.fault = some r →
    perform p .timerStep s = .next (s, .halted r))

/-- R161; the count is the spec's inference. -/
def Obligations.CounterFloorsAtZeroAfterKTicks : Prop :=
  ∀ (k : Nat) (s : State), s.running →
    (timerStep^[k] s).dt.toNat = s.dt.toNat - k ∧ (timerStep^[k] s).st.toNat = s.st.toNat - k ∧
    timerStep^[k] s = { s with dt := (timerStep^[k] s).dt, st := (timerStep^[k] s).st }

/-- R162 and its consequences, which the spec marks as derived. -/
def Obligations.OneCuePerCountdown : Prop :=
  ∀ (k : Nat) (s : State), s.running →
    (timerCue (timerStep^[k] s) = true ↔ s.st.toNat = k + 1)

/-- R166, marked derived in the spec. -/
def Obligations.TimerStepCommutesWithAGoodStep : Prop :=
  ∀ (p : Params) (s t : State), s.running → instructionStep p s = .next t → t.running →
    instructionStep p (timerStep s) = .next (timerStep t) ∧ timerCue t = timerCue s

/-- R193, the check being the spec's decision D14. -/
def Obligations.HostLoadWritesAllOrNothing : Prop :=
  ∀ (p : Params) (bytes : List Byte) (s : State), Memory.wf p s.mem = true →
    (p.startAddr.toNat + bytes.length ≤ p.memSize →
      ∃ t, perform p (.load bytes) s = .next (t, .ok) ∧
        (∀ (k : Nat) (h : k < bytes.length),
          Memory.peek p t.mem (p.startAddr.toNat + k) = bytes[k]) ∧
        (∀ a, a < p.startAddr.toNat ∨ p.startAddr.toNat + bytes.length ≤ a →
          Memory.peek p t.mem a = Memory.peek p s.mem a) ∧
        t = { s with mem := t.mem }) ∧
    (p.memSize < p.startAddr.toNat + bytes.length →
      perform p (.load bytes) s = .next (s, .refused))

/-- R194 and R195, resting on the spec's decisions D11 and D12. -/
def Obligations.HostKeyAndTimerWritesChangeOnlyTheirTarget : Prop :=
  (∀ (p : Params) (k : Nat) (b : Bool) (s : State), s.keys.length = p.keyCount →
    (k < p.keyCount → ∃ t, perform p (.setKey k b) s = .next (t, .ok) ∧
      t.keys[k]? = some b ∧ (∀ j, j ≠ k → t.keys[j]? = s.keys[j]?) ∧
      t = { s with keys := t.keys }) ∧
    (p.keyCount ≤ k → perform p (.setKey k b) s = .next (s, .refused))) ∧
  (∀ (p : Params) (v : Byte) (s : State),
    perform p (.setTimer .delay v) s = .next ({ s with dt := v }, .ok) ∧
    perform p (.setTimer .sound v) s = .next ({ s with st := v }, .ok))

/-- R35, R196 and R197, resting on the spec's decisions D10 and D13. -/
def Obligations.ReadPortsReturnTheCellsAndChangeNothing : Prop :=
  ∀ (p : Params) (s : State),
    (∃ cells, perform p .readFramebuffer s = .next (s, .cells cells) ∧ cells.length = 2048 ∧
      ∀ (cx : Fin fbW) (cy : Fin fbH),
        cells[cy.val * 64 + cx.val]? = some (pixel s cx cy) ∧
        fbCell s (fbIndex cx cy) = pixel s cx cy) ∧
    perform p .observe s = .next (s, .observed s)

/-- R177, the spec's decision D6; by induction over the operations. -/
def Obligations.LatchHoldsUntilReset : Prop :=
  ∀ (p : Params) (ops : List Op) (s t : State) (rs : List Report) (r : FaultRecord),
    s.fault = some r → (∀ op ∈ ops, op.resets = false) → runOps p ops s = .next (t, rs) →
    t = { s with mem := t.mem, keys := t.keys, dt := t.dt, st := t.st }

/-- R206 and R177 (the spec's decision D6): the latch is never cleared by a step, so looking at the
end of a run is enough. `endsWell` and `runToLatch` are the model's (log entry 5); the plain steps
are `runOps`. -/
def Obligations.EndsWellIsKPlainStepsThatEndRunning : Prop :=
  (∀ (p : Params) (k : Nat) (s t : State),
    endsWell p k s t ↔
      (∃ rs, runOps p (List.replicate k .instructionStep) s = .next (t, rs)) ∧ t.running) ∧
  (∀ (p : Params) (k : Nat) (s t : State), endsWell p k s t →
    runOps p (List.replicate k .instructionStep) s = .next (t, List.replicate k .ok)) ∧
  (∀ (p : Params) (k : Nat) (s t : State) (rs : List Report) (r : FaultRecord),
    runOps p (List.replicate k .instructionStep) s = .next (t, rs) → t.fault = some r →
    runToLatch p (k + 1) s = .fault (.halted r))

/-- R25, R30, R35, R153 and R172 to R175 as one inductive invariant of the step; the clauses rest on
inferences the spec marks as derived and on its decisions D6 and D9. -/
def Obligations.StepKeepsTheMachineInvariant : Prop :=
  ∀ s t : State, s.Inv standard → step s = .next t → t.Inv standard

/-- The invariant over the whole transition system of R199, with any `FONT` and any sizes R8 allows.
-/
def Obligations.EveryOperationKeepsTheMachineInvariant : Prop :=
  ∀ (p : Params) (op : Op) (s t : State) (r : Report), p.Legal → s.Inv p →
    perform p op s = .next (t, r) → t.Inv p

/-- A claim for every interleaving the host is allowed (R199). -/
def Obligations.EveryRunKeepsTheMachineInvariant : Prop :=
  ∀ (p : Params) (ops : List Op) (s : State), p.Legal → s.Inv p →
    ∃ t rs, runOps p ops s = .next (t, rs) ∧ t.Inv p

/-- R107 and R198 (a). That the report is read off `FAULT` is the model's choice, log entry 6; the
halted report is the spec's decision D6. -/
def Obligations.InstructionStepReportsOkRaisedOrHalted : Prop :=
  (∀ (p : Params) (s t : State), s.running → instructionStep p s = .next t →
    (t.running → perform p .instructionStep s = .next (t, .ok) ∧
      ∃ w i, fetch p s = .ok w ∧ decodeWord w = some i ∧ exec i (advance s) = .next t) ∧
    (∀ r, t.fault = some r → perform p .instructionStep s = .next (t, .raised r))) ∧
  (∀ (p : Params) (s : State) (r : FaultRecord), s.fault = some r →
    perform p .instructionStep s = .next (s, .halted r))
end

