-- ==== Sys2Proof/Laws/Decode.lean ====
section
/-! SUPPORT. A word as its four nibbles, what the fields and the decoder give of it, and the bytes
of a word. -/

namespace Sys2Proof

/-! ### Splitting into nibbles -/

theorem word_eq_nibbles (w : Word) : ∃ a b c d : Nibble, w = a ++ b ++ c ++ d := by
  refine ⟨fieldN3 w, fieldN2 w, fieldN1 w, fieldN0 w, ?_⟩
  apply BitVec.eq_of_getLsbD_eq
  intro k hk
  simp only [fieldN3, fieldN2, fieldN1, fieldN0, BitVec.getLsbD_append, BitVec.getLsbD_extractLsb']
  interval_cases k <;> simp

theorem address_eq_nibbles (a : Addr12) : ∃ b c d : Nibble, a = b ++ c ++ d := by
  refine ⟨a.extractLsb' 8 4, a.extractLsb' 4 4, a.extractLsb' 0 4, ?_⟩
  apply BitVec.eq_of_getLsbD_eq
  intro k hk
  simp only [BitVec.getLsbD_append, BitVec.getLsbD_extractLsb']
  interval_cases k <;> simp

theorem byte_eq_nibbles (a : Byte) : ∃ c d : Nibble, a = c ++ d := by
  refine ⟨a.extractLsb' 4 4, a.extractLsb' 0 4, ?_⟩
  apply BitVec.eq_of_getLsbD_eq
  intro k hk
  simp only [BitVec.getLsbD_append, BitVec.getLsbD_extractLsb']
  interval_cases k <;> simp

theorem append_address (a b c d : Nibble) : (a ++ (b ++ c ++ d) : Word) = a ++ b ++ c ++ d := by
  apply BitVec.eq_of_getLsbD_eq
  intro k hk
  simp only [BitVec.getLsbD_append]
  interval_cases k <;> simp

theorem append_immediate (a b c d : Nibble) : (a ++ b ++ (c ++ d) : Word) = a ++ b ++ c ++ d := by
  apply BitVec.eq_of_getLsbD_eq
  intro k hk
  simp only [BitVec.getLsbD_append]
  interval_cases k <;> simp

/-! ### The fields -/

theorem fieldN3_append (a b c d : Nibble) : fieldN3 (a ++ b ++ c ++ d) = a := by
  apply BitVec.eq_of_getLsbD_eq
  intro k hk
  simp only [fieldN3, BitVec.getLsbD_append, BitVec.getLsbD_extractLsb']
  interval_cases k <;> simp

theorem fieldN2_append (a b c d : Nibble) : fieldN2 (a ++ b ++ c ++ d) = b := by
  apply BitVec.eq_of_getLsbD_eq
  intro k hk
  simp only [fieldN2, BitVec.getLsbD_append, BitVec.getLsbD_extractLsb']
  interval_cases k <;> simp

theorem fieldN1_append (a b c d : Nibble) : fieldN1 (a ++ b ++ c ++ d) = c := by
  apply BitVec.eq_of_getLsbD_eq
  intro k hk
  simp only [fieldN1, BitVec.getLsbD_append, BitVec.getLsbD_extractLsb']
  interval_cases k <;> simp

theorem fieldN0_append (a b c d : Nibble) : fieldN0 (a ++ b ++ c ++ d) = d := by
  apply BitVec.eq_of_getLsbD_eq
  intro k hk
  simp only [fieldN0, BitVec.getLsbD_append, BitVec.getLsbD_extractLsb']
  interval_cases k <;> simp

theorem fieldNN_append (a b c d : Nibble) : fieldNN (a ++ b ++ c ++ d) = c ++ d := by
  apply BitVec.eq_of_getLsbD_eq
  intro k hk
  simp only [fieldNN, BitVec.getLsbD_append, BitVec.getLsbD_extractLsb']
  interval_cases k <;> simp

theorem fieldNNN_append (a b c d : Nibble) : fieldNNN (a ++ b ++ c ++ d) = b ++ c ++ d := by
  apply BitVec.eq_of_getLsbD_eq
  intro k hk
  simp only [fieldNNN, BitVec.getLsbD_append, BitVec.getLsbD_extractLsb']
  interval_cases k <;> simp

theorem append_inj {a b c d a' b' c' d' : Nibble} :
    (a ++ b ++ c ++ d : Word) = a' ++ b' ++ c' ++ d' ↔ a = a' ∧ b = b' ∧ c = c' ∧ d = d' := by
  constructor
  · intro h
    refine ⟨?_, ?_, ?_, ?_⟩
    · simpa only [fieldN3_append] using congrArg fieldN3 h
    · simpa only [fieldN2_append] using congrArg fieldN2 h
    · simpa only [fieldN1_append] using congrArg fieldN1 h
    · simpa only [fieldN0_append] using congrArg fieldN0 h
  · rintro ⟨rfl, rfl, rfl, rfl⟩; rfl

/-! ### The decoder -/

/-- What a word decodes to, by its four nibbles. -/
theorem decodeWord_append (a b c d : Nibble) : decodeWord (a ++ b ++ c ++ d) =
    match a with
    | 0x0#4 => decodeFamily0 b c d
    | 0x1#4 => some (.jmp (b ++ c ++ d))
    | 0x2#4 => some (.call (b ++ c ++ d))
    | 0x3#4 => some (.skipEqImm b (c ++ d))
    | 0x4#4 => some (.skipNeqImm b (c ++ d))
    | 0x5#4 => if d = 0x0#4 then some (.skipEqReg b c) else none
    | 0x6#4 => some (.setImm b (c ++ d))
    | 0x7#4 => some (.addImm b (c ++ d))
    | 0x8#4 => if d = 0x0#4 then some (.copyReg b c) else none
    | _ => none := by
  unfold decodeWord
  rw [fieldN3_append, fieldN2_append, fieldN1_append, fieldN0_append, fieldNN_append,
    fieldNNN_append, fieldX, fieldY, fieldN2_append, fieldN1_append] <;> rfl

/-- The families the decoder tells apart; 9 and above have no instruction. -/
theorem family_cases (a : Nibble) :
    a = 0#4 ∨ a = 1#4 ∨ a = 2#4 ∨ a = 3#4 ∨ a = 4#4 ∨ a = 5#4 ∨ a = 6#4 ∨ a = 7#4 ∨ a = 8#4 ∨
      9 ≤ a.toNat := by
  revert a; decide

/-- No word of the families from 9 on is an instruction. -/
theorem decodeWord_append_of_le {a : Nibble} (b c d : Nibble) (h : 9 ≤ a.toNat) :
    decodeWord (a ++ b ++ c ++ d) = none := by
  have h9 : a = 9#4 ∨ a = 10#4 ∨ a = 11#4 ∨ a = 12#4 ∨ a = 13#4 ∨ a = 14#4 ∨ a = 15#4 := by
    revert a; decide
  rw [decodeWord_append]
  rcases h9 with rfl | rfl | rfl | rfl | rfl | rfl | rfl <;> rfl

/-- Family 0 in one line per instruction. -/
theorem decodeFamily0_cases (b c d : Nibble) :
    (b = 0#4 ∧ c = 0#4 ∧ d = 0#4 ∧ decodeFamily0 b c d = some .nop) ∨
    (b = 0#4 ∧ c = 14#4 ∧ d = 0#4 ∧ decodeFamily0 b c d = some .cls) ∨
    (b = 0#4 ∧ c = 14#4 ∧ d = 14#4 ∧ decodeFamily0 b c d = some .ret) ∨
    (¬ (b = 0#4 ∧ c = 0#4 ∧ d = 0#4) ∧ ¬ (b = 0#4 ∧ c = 14#4 ∧ d = 0#4) ∧
      ¬ (b = 0#4 ∧ c = 14#4 ∧ d = 14#4) ∧ decodeFamily0 b c d = none) := by
  revert b c d; decide

/-! ### The bytes of a word -/

theorem joinBytes_hi_lo (w : Word) : joinBytes (hiByte w) (loByte w) = w := by
  apply BitVec.eq_of_getLsbD_eq
  intro k hk
  simp only [joinBytes, hiByte, loByte, BitVec.getLsbD_append, BitVec.getLsbD_extractLsb']
  interval_cases k <;> simp

theorem hiByte_joinBytes (hi lo : Byte) : hiByte (joinBytes hi lo) = hi := by
  apply BitVec.eq_of_getLsbD_eq
  intro k hk
  simp only [joinBytes, hiByte, BitVec.getLsbD_append, BitVec.getLsbD_extractLsb']
  interval_cases k <;> simp

theorem loByte_joinBytes (hi lo : Byte) : loByte (joinBytes hi lo) = lo := by
  apply BitVec.eq_of_getLsbD_eq
  intro k hk
  simp only [joinBytes, loByte, BitVec.getLsbD_append, BitVec.getLsbD_extractLsb']
  interval_cases k <;> simp

end Sys2Proof
end

