-- ==== Sys2Proof/Laws/Memory.lean ====
section
/-! SUPPORT. The laws of memory: what a read after a write gives, and that every memory operation
keeps the canonical form. -/

namespace Sys2Proof.Machine

/-- Every listed address is above `a`. -/
abbrev Memory.above (a : Nat) (m : Memory) : Prop := ∀ c ∈ m, a < c.1

theorem Memory.wf_cons (p : Params) (a : Nat) (v : Byte) (m : Memory) :
    Memory.wf p ((a, v) :: m) = true ↔
      a < p.memSize ∧ v ≠ resetByte p a ∧ Memory.above a m ∧ Memory.wf p m = true := by
  simp [Memory.wf, Memory.above, and_assoc]

theorem Memory.lookup_above {a : Nat} {m : Memory} (h : Memory.above a m) :
    Memory.lookup m a = none := by
  induction m with
  | nil => rfl
  | cons c rest ih =>
    obtain ⟨b, u⟩ := c
    have hb : a < b := h (b, u) (by simp)
    simp only [Memory.lookup, Nat.ne_of_lt hb, if_false]
    exact ih fun c hc => h c (by simp [hc])

theorem Memory.above_poke {p : Params} {b a : Nat} {v : Byte} {m : Memory}
    (h : Memory.above b m) (hb : b < a) : Memory.above b (Memory.poke p m a v) := by
  induction m with
  | nil => simp only [Memory.poke]; split <;> simp [Memory.above, hb]
  | cons c rest ih =>
    obtain ⟨d, u⟩ := c
    obtain ⟨hd, hrest⟩ := List.forall_mem_cons.1 h
    simp only [Memory.poke]
    split
    · split
      · exact h
      · exact List.forall_mem_cons.2 ⟨hb, h⟩
    · split
      · split
        · exact hrest
        · exact List.forall_mem_cons.2 ⟨hb, hrest⟩
      · exact List.forall_mem_cons.2 ⟨hd, ih hrest⟩

/-- Writing keeps the canonical form. -/
theorem Memory.wf_poke {p : Params} {m : Memory} {a : Nat} (v : Byte)
    (hm : Memory.wf p m = true) (ha : a < p.memSize) :
    Memory.wf p (Memory.poke p m a v) = true := by
  induction m with
  | nil =>
    simp only [Memory.poke]
    split
    · rfl
    · rw [Memory.wf_cons]; exact ⟨ha, ‹_›, by simp [Memory.above], rfl⟩
  | cons c rest ih =>
    obtain ⟨b, u⟩ := c
    obtain ⟨hb, hu, habove, hrest⟩ := (Memory.wf_cons ..).1 hm
    simp only [Memory.poke]
    split
    next hlt =>
      split
      · exact hm
      · rw [Memory.wf_cons]
        refine ⟨ha, ‹_›, ?_, hm⟩
        simp only [Memory.above, List.forall_mem_cons]
        exact ⟨hlt, fun c hc => Nat.lt_trans hlt (habove c hc)⟩
    next hge =>
      split
      next heq =>
        subst heq
        split
        · exact hrest
        · exact (Memory.wf_cons ..).2 ⟨ha, ‹_›, habove, hrest⟩
      next hne =>
        exact (Memory.wf_cons ..).2 ⟨hb, hu, Memory.above_poke habove (by omega), ih hrest⟩

/-- Writing a block that fits keeps the canonical form. -/
theorem Memory.wf_pokeBytes {p : Params} (bytes : List Byte) {m : Memory} {a : Nat}
    (hm : Memory.wf p m = true) (ha : a + bytes.length ≤ p.memSize) :
    Memory.wf p (Memory.pokeBytes p m a bytes) = true := by
  induction bytes generalizing m a with
  | nil => exact hm
  | cons b bs ih =>
    simp only [List.length_cons] at ha
    exact ih (Memory.wf_poke b hm (by omega)) (by omega)

/-- A bounds-checked write keeps the canonical form. -/
theorem Memory.wf_write {p : Params} {m m' : Memory} {a : Nat} {v : Byte}
    (hm : Memory.wf p m = true) (h : Memory.write p m a v = .ok m') :
    Memory.wf p m' = true := by
  unfold Memory.write at h
  split at h
  next ha => cases h; exact Memory.wf_poke v hm ha
  · cases h

/-- The reset state's memory is in canonical form. -/
theorem Memory.wf_reset (p : Params) : Memory.wf p (State.resetWith p).mem = true := rfl

/-- A write leaves every other address alone. -/
theorem Memory.peek_poke_other {p : Params} {a b : Nat} (m : Memory) (v : Byte) (h : b ≠ a) :
    Memory.peek p (Memory.poke p m a v) b = Memory.peek p m b := by
  suffices Memory.lookup (Memory.poke p m a v) b = Memory.lookup m b by
    simp [Memory.peek, this]
  induction m with
  | nil => simp only [Memory.poke]; split <;> simp [Memory.lookup, h]
  | cons c rest ih =>
    obtain ⟨d, u⟩ := c
    simp only [Memory.poke]
    split
    · split <;> simp [Memory.lookup, h]
    · split
      next heq => subst heq; split <;> simp [Memory.lookup, h]
      · simp [Memory.lookup, ih]

/-- A read after a write to the same address gives the byte written. -/
theorem Memory.peek_poke_same {p : Params} {m : Memory} (a : Nat) (v : Byte)
    (hm : Memory.wf p m = true) : Memory.peek p (Memory.poke p m a v) a = v := by
  induction m with
  | nil => simp only [Memory.poke]; split <;> simp_all [Memory.peek, Memory.lookup]
  | cons c rest ih =>
    obtain ⟨b, u⟩ := c
    obtain ⟨-, -, habove, hrest⟩ := (Memory.wf_cons ..).1 hm
    simp only [Memory.poke]
    split
    next hlt =>
      split
      next hv =>
        have : Memory.above a ((b, u) :: rest) := by
          simp only [Memory.above, List.forall_mem_cons]
          exact ⟨hlt, fun c hc => Nat.lt_trans hlt (habove c hc)⟩
        simp [Memory.peek, Memory.lookup_above this, hv]
      · simp [Memory.peek, Memory.lookup]
    next hge =>
      split
      next heq =>
        subst heq
        split
        next hv => simp [Memory.peek, Memory.lookup_above habove, hv]
        · simp [Memory.peek, Memory.lookup]
      next hne => simpa [Memory.peek, Memory.lookup, hne] using ih hrest

/-- What a block write leaves: the block's bytes in its range, every other address as before. -/
theorem Memory.peek_pokeBytes {p : Params} (bytes : List Byte) {m : Memory} {a : Nat} (b : Nat)
    (hm : Memory.wf p m = true) (ha : a + bytes.length ≤ p.memSize) :
    Memory.peek p (Memory.pokeBytes p m a bytes) b =
      if h : a ≤ b ∧ b < a + bytes.length then bytes[b - a]'(by omega)
      else Memory.peek p m b := by
  induction bytes generalizing m a with
  | nil =>
    rw [dif_neg (by simp)]
    rfl
  | cons v vs ih =>
    simp only [List.length_cons] at ha ⊢
    simp only [Memory.pokeBytes]
    rw [ih (Memory.wf_poke v hm (by omega)) (by omega)]
    by_cases hb : b = a
    · subst hb
      rw [dif_neg (by omega), dif_pos (by omega), Memory.peek_poke_same b v hm]
      simp
    · by_cases hin : a + 1 ≤ b ∧ b < a + 1 + vs.length
      · rw [dif_pos hin, dif_pos (by omega)]
        simp [List.getElem_cons, show b - a ≠ 0 by omega, show b - a - 1 = b - (a + 1) by omega]
      · rw [dif_neg hin, dif_neg (by omega), Memory.peek_poke_other m v hb]

end Sys2Proof.Machine
end

