-- ==== Sys2Proof/Laws/State.lean ====
section
/-! SUPPORT. One lemma per field of State per named update, so that no proof unfolds a record
update. -/

namespace Sys2Proof.Machine

@[simp] theorem setPc_v (a : Word) (s : State) : (setPc a s).v = s.v := rfl
@[simp] theorem setPc_i (a : Word) (s : State) : (setPc a s).i = s.i := rfl
@[simp] theorem setPc_pc (a : Word) (s : State) : (setPc a s).pc = a := rfl
@[simp] theorem setPc_mem (a : Word) (s : State) : (setPc a s).mem = s.mem := rfl
@[simp] theorem setPc_stack (a : Word) (s : State) : (setPc a s).stack = s.stack := rfl
@[simp] theorem setPc_sp (a : Word) (s : State) : (setPc a s).sp = s.sp := rfl
@[simp] theorem setPc_dt (a : Word) (s : State) : (setPc a s).dt = s.dt := rfl
@[simp] theorem setPc_st (a : Word) (s : State) : (setPc a s).st = s.st := rfl
@[simp] theorem setPc_fb (a : Word) (s : State) : (setPc a s).fb = s.fb := rfl
@[simp] theorem setPc_keys (a : Word) (s : State) : (setPc a s).keys = s.keys := rfl
@[simp] theorem setPc_fault (a : Word) (s : State) : (setPc a s).fault = s.fault := rfl

@[simp] theorem advance_v (s : State) : (advance s).v = s.v := rfl
@[simp] theorem advance_i (s : State) : (advance s).i = s.i := rfl
@[simp] theorem advance_pc (s : State) : (advance s).pc = s.pc + 2 := rfl
@[simp] theorem advance_mem (s : State) : (advance s).mem = s.mem := rfl
@[simp] theorem advance_stack (s : State) : (advance s).stack = s.stack := rfl
@[simp] theorem advance_sp (s : State) : (advance s).sp = s.sp := rfl
@[simp] theorem advance_dt (s : State) : (advance s).dt = s.dt := rfl
@[simp] theorem advance_st (s : State) : (advance s).st = s.st := rfl
@[simp] theorem advance_fb (s : State) : (advance s).fb = s.fb := rfl
@[simp] theorem advance_keys (s : State) : (advance s).keys = s.keys := rfl
@[simp] theorem advance_fault (s : State) : (advance s).fault = s.fault := rfl

@[simp] theorem writeReg_v (x : Nibble) (b : Byte) (s : State) :
    (writeReg x b s).v = s.v.set x.toNat b x.isLt := rfl
@[simp] theorem writeReg_i (x : Nibble) (b : Byte) (s : State) : (writeReg x b s).i = s.i := rfl
@[simp] theorem writeReg_pc (x : Nibble) (b : Byte) (s : State) : (writeReg x b s).pc = s.pc := rfl
@[simp] theorem writeReg_mem (x : Nibble) (b : Byte) (s : State) :
    (writeReg x b s).mem = s.mem := rfl
@[simp] theorem writeReg_stack (x : Nibble) (b : Byte) (s : State) :
    (writeReg x b s).stack = s.stack := rfl
@[simp] theorem writeReg_sp (x : Nibble) (b : Byte) (s : State) : (writeReg x b s).sp = s.sp := rfl
@[simp] theorem writeReg_dt (x : Nibble) (b : Byte) (s : State) : (writeReg x b s).dt = s.dt := rfl
@[simp] theorem writeReg_st (x : Nibble) (b : Byte) (s : State) : (writeReg x b s).st = s.st := rfl
@[simp] theorem writeReg_fb (x : Nibble) (b : Byte) (s : State) : (writeReg x b s).fb = s.fb := rfl
@[simp] theorem writeReg_keys (x : Nibble) (b : Byte) (s : State) :
    (writeReg x b s).keys = s.keys := rfl
@[simp] theorem writeReg_fault (x : Nibble) (b : Byte) (s : State) :
    (writeReg x b s).fault = s.fault := rfl

@[simp] theorem setStack_v (slots : Vector Word stackCap) (s : State) :
    (setStack slots s).v = s.v := rfl
@[simp] theorem setStack_i (slots : Vector Word stackCap) (s : State) :
    (setStack slots s).i = s.i := rfl
@[simp] theorem setStack_pc (slots : Vector Word stackCap) (s : State) :
    (setStack slots s).pc = s.pc := rfl
@[simp] theorem setStack_mem (slots : Vector Word stackCap) (s : State) :
    (setStack slots s).mem = s.mem := rfl
@[simp] theorem setStack_stack (slots : Vector Word stackCap) (s : State) :
    (setStack slots s).stack = slots := rfl
@[simp] theorem setStack_sp (slots : Vector Word stackCap) (s : State) :
    (setStack slots s).sp = s.sp := rfl
@[simp] theorem setStack_dt (slots : Vector Word stackCap) (s : State) :
    (setStack slots s).dt = s.dt := rfl
@[simp] theorem setStack_st (slots : Vector Word stackCap) (s : State) :
    (setStack slots s).st = s.st := rfl
@[simp] theorem setStack_fb (slots : Vector Word stackCap) (s : State) :
    (setStack slots s).fb = s.fb := rfl
@[simp] theorem setStack_keys (slots : Vector Word stackCap) (s : State) :
    (setStack slots s).keys = s.keys := rfl
@[simp] theorem setStack_fault (slots : Vector Word stackCap) (s : State) :
    (setStack slots s).fault = s.fault := rfl

@[simp] theorem setSp_v (k : Fin (stackCap + 1)) (s : State) : (setSp k s).v = s.v := rfl
@[simp] theorem setSp_i (k : Fin (stackCap + 1)) (s : State) : (setSp k s).i = s.i := rfl
@[simp] theorem setSp_pc (k : Fin (stackCap + 1)) (s : State) : (setSp k s).pc = s.pc := rfl
@[simp] theorem setSp_mem (k : Fin (stackCap + 1)) (s : State) : (setSp k s).mem = s.mem := rfl
@[simp] theorem setSp_stack (k : Fin (stackCap + 1)) (s : State) :
    (setSp k s).stack = s.stack := rfl
@[simp] theorem setSp_sp (k : Fin (stackCap + 1)) (s : State) : (setSp k s).sp = k := rfl
@[simp] theorem setSp_dt (k : Fin (stackCap + 1)) (s : State) : (setSp k s).dt = s.dt := rfl
@[simp] theorem setSp_st (k : Fin (stackCap + 1)) (s : State) : (setSp k s).st = s.st := rfl
@[simp] theorem setSp_fb (k : Fin (stackCap + 1)) (s : State) : (setSp k s).fb = s.fb := rfl
@[simp] theorem setSp_keys (k : Fin (stackCap + 1)) (s : State) : (setSp k s).keys = s.keys := rfl
@[simp] theorem setSp_fault (k : Fin (stackCap + 1)) (s : State) :
    (setSp k s).fault = s.fault := rfl

@[simp] theorem clearFb_v (s : State) : (clearFb s).v = s.v := rfl
@[simp] theorem clearFb_i (s : State) : (clearFb s).i = s.i := rfl
@[simp] theorem clearFb_pc (s : State) : (clearFb s).pc = s.pc := rfl
@[simp] theorem clearFb_mem (s : State) : (clearFb s).mem = s.mem := rfl
@[simp] theorem clearFb_stack (s : State) : (clearFb s).stack = s.stack := rfl
@[simp] theorem clearFb_sp (s : State) : (clearFb s).sp = s.sp := rfl
@[simp] theorem clearFb_dt (s : State) : (clearFb s).dt = s.dt := rfl
@[simp] theorem clearFb_st (s : State) : (clearFb s).st = s.st := rfl
@[simp] theorem clearFb_fb (s : State) : (clearFb s).fb = darkFb := rfl
@[simp] theorem clearFb_keys (s : State) : (clearFb s).keys = s.keys := rfl
@[simp] theorem clearFb_fault (s : State) : (clearFb s).fault = s.fault := rfl

@[simp] theorem setKey_v (k : Nat) (b : Bool) (s : State) : (setKey k b s).v = s.v := rfl
@[simp] theorem setKey_i (k : Nat) (b : Bool) (s : State) : (setKey k b s).i = s.i := rfl
@[simp] theorem setKey_pc (k : Nat) (b : Bool) (s : State) : (setKey k b s).pc = s.pc := rfl
@[simp] theorem setKey_mem (k : Nat) (b : Bool) (s : State) : (setKey k b s).mem = s.mem := rfl
@[simp] theorem setKey_stack (k : Nat) (b : Bool) (s : State) :
    (setKey k b s).stack = s.stack := rfl
@[simp] theorem setKey_sp (k : Nat) (b : Bool) (s : State) : (setKey k b s).sp = s.sp := rfl
@[simp] theorem setKey_dt (k : Nat) (b : Bool) (s : State) : (setKey k b s).dt = s.dt := rfl
@[simp] theorem setKey_st (k : Nat) (b : Bool) (s : State) : (setKey k b s).st = s.st := rfl
@[simp] theorem setKey_fb (k : Nat) (b : Bool) (s : State) : (setKey k b s).fb = s.fb := rfl
@[simp] theorem setKey_keys (k : Nat) (b : Bool) (s : State) :
    (setKey k b s).keys = s.keys.set k b := rfl
@[simp] theorem setKey_fault (k : Nat) (b : Bool) (s : State) :
    (setKey k b s).fault = s.fault := rfl

@[simp] theorem setTimers_v (d t : Byte) (s : State) : (setTimers d t s).v = s.v := rfl
@[simp] theorem setTimers_i (d t : Byte) (s : State) : (setTimers d t s).i = s.i := rfl
@[simp] theorem setTimers_pc (d t : Byte) (s : State) : (setTimers d t s).pc = s.pc := rfl
@[simp] theorem setTimers_mem (d t : Byte) (s : State) : (setTimers d t s).mem = s.mem := rfl
@[simp] theorem setTimers_stack (d t : Byte) (s : State) : (setTimers d t s).stack = s.stack := rfl
@[simp] theorem setTimers_sp (d t : Byte) (s : State) : (setTimers d t s).sp = s.sp := rfl
@[simp] theorem setTimers_dt (d t : Byte) (s : State) : (setTimers d t s).dt = d := rfl
@[simp] theorem setTimers_st (d t : Byte) (s : State) : (setTimers d t s).st = t := rfl
@[simp] theorem setTimers_fb (d t : Byte) (s : State) : (setTimers d t s).fb = s.fb := rfl
@[simp] theorem setTimers_keys (d t : Byte) (s : State) : (setTimers d t s).keys = s.keys := rfl
@[simp] theorem setTimers_fault (d t : Byte) (s : State) : (setTimers d t s).fault = s.fault := rfl

@[simp] theorem setMem_v (m : Memory) (s : State) : (setMem m s).v = s.v := rfl
@[simp] theorem setMem_i (m : Memory) (s : State) : (setMem m s).i = s.i := rfl
@[simp] theorem setMem_pc (m : Memory) (s : State) : (setMem m s).pc = s.pc := rfl
@[simp] theorem setMem_mem (m : Memory) (s : State) : (setMem m s).mem = m := rfl
@[simp] theorem setMem_stack (m : Memory) (s : State) : (setMem m s).stack = s.stack := rfl
@[simp] theorem setMem_sp (m : Memory) (s : State) : (setMem m s).sp = s.sp := rfl
@[simp] theorem setMem_dt (m : Memory) (s : State) : (setMem m s).dt = s.dt := rfl
@[simp] theorem setMem_st (m : Memory) (s : State) : (setMem m s).st = s.st := rfl
@[simp] theorem setMem_fb (m : Memory) (s : State) : (setMem m s).fb = s.fb := rfl
@[simp] theorem setMem_keys (m : Memory) (s : State) : (setMem m s).keys = s.keys := rfl
@[simp] theorem setMem_fault (m : Memory) (s : State) : (setMem m s).fault = s.fault := rfl

@[simp] theorem latch_v (r : FaultRecord) (s : State) : (latch r s).v = s.v := rfl
@[simp] theorem latch_i (r : FaultRecord) (s : State) : (latch r s).i = s.i := rfl
@[simp] theorem latch_pc (r : FaultRecord) (s : State) : (latch r s).pc = s.pc := rfl
@[simp] theorem latch_mem (r : FaultRecord) (s : State) : (latch r s).mem = s.mem := rfl
@[simp] theorem latch_stack (r : FaultRecord) (s : State) : (latch r s).stack = s.stack := rfl
@[simp] theorem latch_sp (r : FaultRecord) (s : State) : (latch r s).sp = s.sp := rfl
@[simp] theorem latch_dt (r : FaultRecord) (s : State) : (latch r s).dt = s.dt := rfl
@[simp] theorem latch_st (r : FaultRecord) (s : State) : (latch r s).st = s.st := rfl
@[simp] theorem latch_fb (r : FaultRecord) (s : State) : (latch r s).fb = s.fb := rfl
@[simp] theorem latch_keys (r : FaultRecord) (s : State) : (latch r s).keys = s.keys := rfl
@[simp] theorem latch_fault (r : FaultRecord) (s : State) : (latch r s).fault = some r := rfl

/-! ### The reset state -/

@[simp] theorem resetWith_v (p : Params) : (State.resetWith p).v = Vector.replicate nregs 0 := rfl
@[simp] theorem resetWith_i (p : Params) : (State.resetWith p).i = 0 := rfl
@[simp] theorem resetWith_pc (p : Params) : (State.resetWith p).pc = p.startAddr := rfl
@[simp] theorem resetWith_mem (p : Params) : (State.resetWith p).mem = [] := rfl
@[simp] theorem resetWith_stack (p : Params) :
    (State.resetWith p).stack = Vector.replicate stackCap 0 := rfl
@[simp] theorem resetWith_sp (p : Params) : (State.resetWith p).sp = 0 := rfl
@[simp] theorem resetWith_dt (p : Params) : (State.resetWith p).dt = 0 := rfl
@[simp] theorem resetWith_st (p : Params) : (State.resetWith p).st = 0 := rfl
@[simp] theorem resetWith_fb (p : Params) : (State.resetWith p).fb = darkFb := rfl
@[simp] theorem resetWith_keys (p : Params) :
    (State.resetWith p).keys = List.replicate p.keyCount false := rfl
@[simp] theorem resetWith_fault (p : Params) : (State.resetWith p).fault = none := rfl

end Sys2Proof.Machine
end

