-- ==== Sys2Proof/Laws/Ops.lean ====
section
/-! SUPPORT. One lemma per shared operation that says once what it can do. -/

namespace Sys2Proof.Machine

/-! ### Registers -/

theorem readReg_writeReg_same (x : Nibble) (b : Byte) (s : State) :
    readReg x (writeReg x b s) = b := by
  simp [readReg]

theorem readReg_writeReg_other {x r : Nibble} (b : Byte) (s : State) (h : r ≠ x) :
    readReg r (writeReg x b s) = readReg r s := by
  have : x.toNat ≠ r.toNat := fun e => h (BitVec.eq_of_toNat_eq e.symm)
  simp [readReg, this]

/-- Two register files that read alike everywhere are equal. -/
theorem v_ext_of_readReg {s t : State} (h : ∀ r, readReg r s = readReg r t) : s.v = t.v := by
  apply Vector.ext
  intro k hk
  simpa [readReg, Nat.mod_eq_of_lt hk] using h (BitVec.ofNat 4 k)

/-! ### The call stack -/

theorem push_of_lt {s : State} (a : Word) (h : s.sp.val < stackCap) :
    push a s = some (setSp ⟨s.sp.val + 1, Nat.succ_lt_succ h⟩
      (setStack (s.stack.set s.sp.val a h) s)) := by
  unfold push; rw [dif_pos h]

theorem push_of_full {s : State} (a : Word) (h : s.sp.val = stackCap) : push a s = none := by
  unfold push; rw [dif_neg (by omega)]

theorem pop_of_zero {s : State} (h : s.sp.val = 0) : pop s = none := by
  obtain ⟨_, _, _, _, _, ⟨k, hk⟩, _⟩ := s
  cases h; rfl

theorem pop_of_succ {s : State} {k : Nat} (h : s.sp.val = k + 1) :
    pop s = some (s.stack[k]'(by have := s.sp.isLt; omega),
      setSp ⟨k, by have := s.sp.isLt; omega⟩ s) := by
  obtain ⟨_, _, _, _, _, ⟨j, hj⟩, _⟩ := s
  cases h; rfl

/-! ### Raising a fault -/

theorem raise_running {s : State} (r : FaultRecord) (h : s.fault = none) :
    raise r s = latch r s := by
  simp [raise, h]

/-- Raising a fault changes nothing but the latch. -/
theorem raise_cases (r : FaultRecord) (s : State) : raise r s = latch r s ∨ raise r s = s := by
  unfold raise; split <;> simp

/-- What an execute arm records as `fetch_pc` is the `PC` of the fetch. -/
theorem fetchPcOf_advance (s : State) : fetchPcOf (advance s) = s.pc := by
  simp [fetchPcOf]

theorem skipIf_eq (c : Bool) (s : State) :
    skipIf c s = setPc (if c then s.pc + 2 else s.pc) s := by
  cases c <;> rfl

/-! ### The fetch -/

theorem fetch_ok {p : Params} {s : State} (h : s.pc.toNat + 1 < p.memSize) :
    fetch p s = .ok (joinBytes (Memory.peek p s.mem s.pc.toNat)
      (Memory.peek p s.mem (s.pc.toNat + 1))) := by
  have h' : s.pc.toNat < p.memSize := by omega
  simp [fetch, Memory.read, h, h']

theorem fetch_first {p : Params} {s : State} (h : p.memSize ≤ s.pc.toNat) :
    fetch p s = .outOfRange s.pc.toNat := by
  simp [fetch, Memory.read, Nat.not_lt.2 h]

theorem fetch_second {p : Params} {s : State} (h : s.pc.toNat + 1 = p.memSize) :
    fetch p s = .outOfRange (s.pc.toNat + 1) := by
  have h' : s.pc.toNat < p.memSize := by omega
  simp [fetch, Memory.read, h, h']

/-- The three outcomes of a fetch. -/
theorem fetch_cases (p : Params) (s : State) :
    (s.pc.toNat + 1 < p.memSize ∧
      fetch p s = .ok (joinBytes (Memory.peek p s.mem s.pc.toNat)
        (Memory.peek p s.mem (s.pc.toNat + 1)))) ∨
    (s.pc.toNat + 1 = p.memSize ∧ fetch p s = .outOfRange (s.pc.toNat + 1)) ∨
    (p.memSize ≤ s.pc.toNat ∧ fetch p s = .outOfRange s.pc.toNat) := by
  rcases Nat.lt_trichotomy (s.pc.toNat + 1) p.memSize with h | h | h
  · exact .inl ⟨h, fetch_ok h⟩
  · exact .inr (.inl ⟨h, fetch_second h⟩)
  · exact .inr (.inr ⟨by omega, fetch_first (by omega)⟩)

end Sys2Proof.Machine
end

