-- ==== Sys2Proof/Laws/Exec.lean ====
section
/-! SUPPORT. What one instruction can do, and what one instruction-step can do. -/

namespace Sys2Proof.Machine

/-- Everything an instruction can do to the state it is executed in: set `PC`, write one register,
clear the framebuffer, push and jump, pop and jump, or raise a fault. -/
theorem exec_cases (i : Instr) (s : State) : ∃ t, exec i s = .next t ∧
    ((∃ a, t = setPc a s) ∨ (∃ x b, t = writeReg x b s) ∨ t = clearFb s ∨
      (∃ nnn, i = .call nnn ∧ ∃ h : s.sp.val < stackCap, t = setPc (addressOperand nnn)
        (setSp ⟨s.sp.val + 1, Nat.succ_lt_succ h⟩ (setStack (s.stack.set s.sp.val s.pc h) s))) ∨
      (i = .ret ∧ ∃ (k : Nat) (h : s.sp.val = k + 1),
        t = setPc (s.stack[k]'(by have := s.sp.isLt; omega))
          (setSp ⟨k, by have := s.sp.isLt; omega⟩ s)) ∨
      (∃ nnn, i = .call nnn ∧ s.sp.val = stackCap ∧
        t = raise (.stackOverflow (encodeWord (.call nnn)) (fetchPcOf s)) s) ∨
      (i = .ret ∧ s.sp.val = 0 ∧
        t = raise (.stackUnderflow (encodeWord .ret) (fetchPcOf s)) s)) := by
  cases i with
  | nop => exact ⟨_, rfl, .inl ⟨s.pc, rfl⟩⟩
  | cls => exact ⟨_, rfl, .inr (.inr (.inl rfl))⟩
  | jmp nnn => exact ⟨_, rfl, .inl ⟨_, rfl⟩⟩
  | skipEqImm x nn => exact ⟨_, rfl, .inl ⟨_, skipIf_eq _ _⟩⟩
  | skipNeqImm x nn => exact ⟨_, rfl, .inl ⟨_, skipIf_eq _ _⟩⟩
  | skipEqReg x y => exact ⟨_, rfl, .inl ⟨_, skipIf_eq _ _⟩⟩
  | setImm x nn => exact ⟨_, rfl, .inr (.inl ⟨_, _, rfl⟩)⟩
  | addImm x nn => exact ⟨_, rfl, .inr (.inl ⟨_, _, rfl⟩)⟩
  | copyReg x y => exact ⟨_, rfl, .inr (.inl ⟨_, _, rfl⟩)⟩
  | ret =>
    rcases Nat.eq_zero_or_eq_succ_pred s.sp.val with h | h
    · refine ⟨_, by simp [exec, execRet, pop_of_zero h]; rfl, ?_⟩
      exact .inr (.inr (.inr (.inr (.inr (.inr ⟨rfl, h, rfl⟩)))))
    · refine ⟨_, by simp [exec, execRet, pop_of_succ h]; rfl, ?_⟩
      exact .inr (.inr (.inr (.inr (.inl ⟨rfl, _, h, rfl⟩))))
  | call nnn =>
    by_cases h : s.sp.val < stackCap
    · refine ⟨_, by simp [exec, execCall, push_of_lt s.pc h]; rfl, ?_⟩
      exact .inr (.inr (.inr (.inl ⟨nnn, rfl, h, rfl⟩)))
    · have h : s.sp.val = stackCap := by have := s.sp.isLt; omega
      refine ⟨_, by simp [exec, execCall, push_of_full s.pc h]; rfl, ?_⟩
      exact .inr (.inr (.inr (.inr (.inr (.inl ⟨nnn, rfl, h, rfl⟩)))))

/-- Everything an instruction-step can do. -/
theorem instructionStep_cases (p : Params) (s : State) :
    (∃ r, s.fault = some r ∧ instructionStep p s = .next s) ∨
    (s.fault = none ∧ ∃ a, fetch p s = .outOfRange a ∧
      instructionStep p s = .next (latch (.outOfRangeAddress a s.pc) s)) ∨
    (s.fault = none ∧ ∃ w, fetch p s = .ok w ∧ decodeWord w = none ∧
      instructionStep p s = .next (latch (.unimplemented w s.pc) (advance s))) ∨
    (s.fault = none ∧ ∃ w i, fetch p s = .ok w ∧ decodeWord w = some i ∧
      instructionStep p s = exec i (advance s)) := by
  rcases hf : s.fault with _ | r
  · right
    rcases hw : fetch p s with w | a
    · right
      rcases hi : decodeWord w with _ | i
      · exact .inl ⟨rfl, w, rfl, hi, by simp [instructionStep, hf, hw, hi, raise_running]⟩
      · exact .inr ⟨rfl, w, i, rfl, hi, by simp [instructionStep, hf, hw, hi]⟩
    · exact .inl ⟨rfl, a, rfl, by simp [instructionStep, hf, hw, raise_running]⟩
  · exact .inl ⟨r, rfl, by simp [instructionStep, hf]⟩

end Sys2Proof.Machine
end

