-- ==== Sys2Proof/Laws/PerInstr.lean ====
section
/-! SUPPORT. Statements about every instruction as syntax, one lemma per constructor.
`EncodingRow`: the word an instruction is encoded as selects that instruction's row of the opcode
map (spec/30_encoding.md R85). -/

namespace Sys2Proof.Laws

/-- The family mask keeps the first nibble and clears the rest. -/
theorem append_and_family (n : Nibble) (a : Addr12) :
    (n ++ a : Word) &&& 0xF000#16 = n ++ 0#12 := by
  apply BitVec.eq_of_getLsbD_eq
  intro k hk
  simp only [BitVec.getLsbD_and, BitVec.getLsbD_append]
  interval_cases k <;> simp

/-- The same with the twelve bits given as a register field and an immediate. -/
theorem append_and_family_xi (n x : Nibble) (nn : Byte) :
    (n ++ x ++ nn : Word) &&& 0xF000#16 = n ++ 0#12 := by
  apply BitVec.eq_of_getLsbD_eq
  intro k hk
  simp only [BitVec.getLsbD_and, BitVec.getLsbD_append]
  interval_cases k <;> simp

/-- The mask of the register-register rows keeps the first and the last nibble. -/
theorem append_and_xy (n x y z : Nibble) :
    (n ++ x ++ y ++ z : Word) &&& 0xF00F#16 = n ++ 0#8 ++ z := by
  apply BitVec.eq_of_getLsbD_eq
  intro k hk
  simp only [BitVec.getLsbD_and, BitVec.getLsbD_append]
  interval_cases k <;> simp

end Sys2Proof.Laws

/-- The encoded word selects the instruction's row. -/
def Sys2Proof.Laws.EncodingRow.Statement (i : Sys2Proof.Instr) : Prop :=
  i.row.selects (Sys2Proof.encodeWord i) = true

namespace Sys2Proof.Laws.EncodingRow

theorem nop : Statement .nop := rfl

theorem cls : Statement .cls := rfl

theorem ret : Statement .ret := rfl

theorem jmp (nnn : Addr12) : Statement (.jmp nnn) :=
  beq_iff_eq.2 (append_and_family _ nnn)

theorem call (nnn : Addr12) : Statement (.call nnn) :=
  beq_iff_eq.2 (append_and_family _ nnn)

theorem skipEqImm (x : Nibble) (nn : Byte) : Statement (.skipEqImm x nn) :=
  beq_iff_eq.2 (append_and_family_xi _ x nn)

theorem skipNeqImm (x : Nibble) (nn : Byte) : Statement (.skipNeqImm x nn) :=
  beq_iff_eq.2 (append_and_family_xi _ x nn)

theorem skipEqReg (x y : Nibble) : Statement (.skipEqReg x y) :=
  beq_iff_eq.2 (append_and_xy _ x y _)

theorem setImm (x : Nibble) (nn : Byte) : Statement (.setImm x nn) :=
  beq_iff_eq.2 (append_and_family_xi _ x nn)

theorem addImm (x : Nibble) (nn : Byte) : Statement (.addImm x nn) :=
  beq_iff_eq.2 (append_and_family_xi _ x nn)

theorem copyReg (x y : Nibble) : Statement (.copyReg x y) :=
  beq_iff_eq.2 (append_and_xy _ x y _)

end Sys2Proof.Laws.EncodingRow
end

