-- ==== Sys2Proof/Laws/Ports.lean ====
section
/-! SUPPORT. What the timer-step and each host operation can do. -/

namespace Sys2Proof.Machine

theorem timerStep_running {s : State} (h : s.fault = none) :
    timerStep s = setTimers (decrement s.dt) (decrement s.st) s := by
  simp [timerStep, tick, h]

theorem timerStep_halted {s : State} {r : FaultRecord} (h : s.fault = some r) :
    timerStep s = s := by
  simp [timerStep, h]

/-- A timer-step changes nothing but the two counters. -/
theorem timerStep_cases (s : State) : ∃ d t, timerStep s = setTimers d t s := by
  rcases h : s.fault with _ | r
  · exact ⟨_, _, timerStep_running h⟩
  · exact ⟨s.dt, s.st, timerStep_halted h⟩

theorem timerStep_fault (s : State) : (timerStep s).fault = s.fault := by
  obtain ⟨d, t, h⟩ := timerStep_cases s
  simp [h]

/-- The decrement is subtraction that floors at zero. -/
theorem decrement_toNat (c : Byte) : (decrement c).toNat = c.toNat - 1 := by
  unfold decrement
  split
  next h => subst h; rfl
  next h =>
    have : c.toNat ≠ 0 := fun e => h (BitVec.eq_of_toNat_eq e)
    have := c.isLt
    rw [BitVec.toNat_sub]; simp; omega

/-- A load is refused whole or writes its block and nothing else. -/
theorem hostLoad_cases (p : Params) (bytes : List Byte) (s : State) :
    (p.startAddr.toNat + bytes.length ≤ p.memSize ∧
      hostLoad p bytes s = some (setMem (Memory.pokeBytes p s.mem p.startAddr.toNat bytes) s)) ∨
    (p.memSize < p.startAddr.toNat + bytes.length ∧ hostLoad p bytes s = none) := by
  unfold hostLoad
  split
  next h => exact .inl ⟨h, rfl⟩
  next h => exact .inr ⟨by omega, rfl⟩

/-- A host write to a counter changes nothing but the counters. -/
theorem hostSetTimer_cases (n : TimerName) (b : Byte) (s : State) :
    ∃ d t, hostSetTimer n b s = setTimers d t s := by
  cases n
  · exact ⟨b, s.st, rfl⟩
  · exact ⟨s.dt, b, rfl⟩

/-- Everything an operation can do: reset, an instruction-step, nothing, or change the
counters, a key, or the memory from `START_ADDR` upward. -/
theorem perform_cases {p : Params} {op : Op} {s t : State} {r : Report}
    (h : perform p op s = .next (t, r)) :
    t = State.resetWith p ∨ (op = .instructionStep ∧ instructionStep p s = .next t) ∨ t = s ∨
      (∃ d e, t = setTimers d e s) ∨ (∃ k b, k < p.keyCount ∧ t = setKey k b s) ∨
      (∃ bytes : List Byte, p.startAddr.toNat + bytes.length ≤ p.memSize ∧
        t = setMem (Memory.pokeBytes p s.mem p.startAddr.toNat bytes) s) := by
  cases op with
  | construct => cases h; exact .inl rfl
  | reset => cases h; exact .inl rfl
  | instructionStep =>
    simp only [perform] at h
    split at h <;> cases h
    exact .inr (.inl ⟨rfl, ‹_›⟩)
  | timerStep => cases h; exact .inr (.inr (.inr (.inl (timerStep_cases s))))
  | load bytes =>
    rcases hostLoad_cases p bytes s with ⟨hb, he⟩ | ⟨-, he⟩ <;>
      simp only [perform, he, writeReport] at h <;> cases h
    · exact .inr (.inr (.inr (.inr (.inr ⟨bytes, hb, rfl⟩))))
    · exact .inr (.inr (.inl rfl))
  | setKey k b =>
    by_cases hk : k < p.keyCount <;>
      simp only [perform, hostSetKey, hk, if_true, if_false, writeReport] at h <;> cases h
    · exact .inr (.inr (.inr (.inr (.inl ⟨k, b, hk, rfl⟩))))
    · exact .inr (.inr (.inl rfl))
  | setTimer n b => cases h; exact .inr (.inr (.inr (.inl (hostSetTimer_cases n b s))))
  | readFramebuffer => cases h; exact .inr (.inr (.inl rfl))
  | observe => cases h; exact .inr (.inr (.inl rfl))

end Sys2Proof.Machine
end

