-- ==== Sys2Proof/Tests/Slice0.lean ====
section
/-! SUPPORT. Tests of the model and witnesses for the hypotheses of the obligations. Every expected
value is one of spec/95_test_vectors.md (its id in the comment) or read off the rule named; none is
the model's own answer. -/

namespace Sys2Proof.Tests

open Sys2Proof.Machine

/-! ### Helpers -/

/-- The reset state with one word at the start address. -/
def holding (w : Word) : State := placeWord standard w State.reset

/-- The state an outcome answers. -/
def stateOf {α : Type} : Host.Outcome α Fault Refusal → Option α
  | .next t => some t
  | .fault _ => none
  | .refused _ => none

/-- One field of the state after one step. -/
def afterStep {α : Type} (f : State → α) (s : State) : Option α := (stateOf (step s)).map f

/-- The report of one operation of the standard machine. -/
def reportOf (op : Op) (s : State) : Option Report := (stateOf (perform standard op s)).map (·.2)

/-- The halted state of section 2.9 of the vectors. -/
def halted : State :=
  { holding 0xD015#16 with
    pc := 0x0202#16
    mem := [(0x200, 0xD0#8), (0x201, 0x15#8), (0x202, 0x6A#8), (0x203, 0x05#8)]
    fault := some (.unimplemented 0xD015#16 0x0200#16) }

/-- A framebuffer with every cell lit. -/
def litFb : Vector (Vector Bool fbW) fbH := Vector.replicate fbH (Vector.replicate fbW true)

/-- The standard machine with memory that ends four bytes above the start address. -/
def small : Params := { standard with memSize := 0x204 }

/-! ### What is ill formed is refused -/

theorem test_wellFormed_refuses :
    wordWellFormed 0x0001#16 = false ∧ wordWellFormed 0x00E1#16 = false ∧
    wordWellFormed 0x5AB1#16 = false ∧ wordWellFormed 0x8BA1#16 = false ∧
    wordWellFormed 0x9AB0#16 = false ∧ wordWellFormed 0xFFFF#16 = false := by decide

theorem test_wellFormed_accepts :
    wordWellFormed 0x0000#16 = true ∧ wordWellFormed 0x00E0#16 = true ∧
    wordWellFormed 0x00EE#16 = true ∧ wordWellFormed 0x1FFF#16 = true ∧
    wordWellFormed 0x5AB0#16 = true ∧ wordWellFormed 0x8BA0#16 = true := by decide

/-- R8, one broken constraint each. -/
theorem test_params_illegal :
    ¬ { standard with startAddr := 79#16 : Params }.Legal ∧
    ¬ { standard with memSize := 0x201 : Params }.Legal ∧
    ¬ { standard with memSize := 65537 : Params }.Legal ∧
    ¬ { standard with keyCount := 0 : Params }.Legal := by decide

theorem test_params_legal :
    standard.Legal ∧ small.Legal ∧ { standard with startAddr := 80#16 : Params }.Legal ∧
    { standard with memSize := 0x202 : Params }.Legal ∧
    { standard with memSize := 65536 : Params }.Legal := by decide

/-- Out of order, a listed reset byte (zero, and a font byte), past the end. -/
theorem test_memory_ill_formed :
    Memory.wf standard [(0x201, 1#8), (0x200, 1#8)] = false ∧
    Memory.wf standard [(0x200, 1#8), (0x200, 2#8)] = false ∧
    Memory.wf standard [(0x200, 0#8)] = false ∧ Memory.wf standard [(0, 0xF0#8)] = false ∧
    Memory.wf standard [(0x1000, 1#8)] = false ∧
    Memory.wf standard [(0, 0#8), (0xFFF, 1#8)] = true := by decide

theorem test_state_ill_formed :
    State.wf standard { State.reset with keys := [] } = false ∧
    State.wf standard { State.reset with mem := [(0x1000, 1#8)] } = false ∧
    State.wf standard State.reset = true := by decide

/-! ### Decoding: every constructor by a word written out from its pattern -/

/-- Nibbles 0,0,0,0; 0,0,E,0; 0,0,E,E. -/
theorem test_decode_family0 :
    decodeWord (0b0000#4 ++ 0b0000#4 ++ 0b0000#4 ++ 0b0000#4) = some .nop ∧
    decodeWord (0b0000#4 ++ 0b0000#4 ++ 0b1110#4 ++ 0b0000#4) = some .cls ∧
    decodeWord (0b0000#4 ++ 0b0000#4 ++ 0b1110#4 ++ 0b1110#4) = some .ret := by decide

/-- Nibbles 1,2,3,4 (T-FET-1) and 2,A,B,C (T-DEC-14). -/
theorem test_decode_jump_call :
    decodeWord (0b0001#4 ++ 0b0010#4 ++ 0b0011#4 ++ 0b0100#4) = some (.jmp 0x234#12) ∧
    decodeWord (0b0010#4 ++ 0b1010#4 ++ 0b1011#4 ++ 0b1100#4) = some (.call 0xABC#12) := by decide

/-- Nibbles 3,A,0,5; 4,3,2,A; 5,A,B,0 (T-DEC-15, T-SKP-4, T-DEC-17). -/
theorem test_decode_skips :
    decodeWord (0b0011#4 ++ 0b1010#4 ++ 0b0000#4 ++ 0b0101#4) = some (.skipEqImm 10#4 5#8) ∧
    decodeWord (0b0100#4 ++ 0b0011#4 ++ 0b0010#4 ++ 0b1010#4) = some (.skipNeqImm 3#4 0x2A#8) ∧
    decodeWord (0b0101#4 ++ 0b1010#4 ++ 0b1011#4 ++ 0b0000#4) = some (.skipEqReg 10#4 11#4) := by
  decide

/-- Nibbles 6,A,0,5; 7,A,0,3; 8,B,A,0 (T-DEC-20 to T-DEC-22): the destination comes first. -/
theorem test_decode_registers :
    decodeWord (0b0110#4 ++ 0b1010#4 ++ 0b0000#4 ++ 0b0101#4) = some (.setImm 10#4 5#8) ∧
    decodeWord (0b0111#4 ++ 0b1010#4 ++ 0b0000#4 ++ 0b0011#4) = some (.addImm 10#4 3#8) ∧
    decodeWord (0b1000#4 ++ 0b1011#4 ++ 0b1010#4 ++ 0b0000#4) = some (.copyReg 11#4 10#4) := by
  decide

/-- T-DEC-4 to T-DEC-33: the unimplemented words of the table. -/
theorem test_decode_unimplemented :
    [0x0001#16, 0x00E1#16, 0x00EF#16, 0x00DF#16, 0x0100#16, 0x0EE0#16, 0x0FFF#16, 0x5AB1#16,
      0x5ABF#16, 0x8BA1#16, 0x8BA4#16, 0x8BAE#16, 0x9AB0#16, 0xA123#16, 0xB000#16, 0xC0FF#16,
      0xD015#16, 0xE09E#16, 0xF007#16, 0xFFFF#16].all (fun w => (decodeWord w).isNone) = true := by
  decide

/-- The two rejections have different names; a third byte is left over (R80, R86). -/
theorem test_decode_bytes :
    decode [] = .truncated ∧ decode [0x6A#8] = .truncated ∧
    decode [0xD0#8, 0x15#8] = .unimplemented 0xD015#16 ∧
    decode [0x6A#8, 0x05#8, 0x7A#8] = .instr (.setImm 10#4 5#8) [0x7A#8] := by decide

/-- The bytes of the programs of part 3, high byte first. -/
theorem test_encode :
    encode .ret = [0x00#8, 0xEE#8] ∧ encode (.call 0x300#12) = [0x23#8, 0x00#8] ∧
    encode (.copyReg 11#4 10#4) = [0x8B#8, 0xA0#8] ∧
    encode (.addImm 10#4 0xFE#8) = [0x7A#8, 0xFE#8] := by decide

/-- R88: the spellings of programs P1 and P2. -/
theorem test_assembly :
    assembly (.setImm 10#4 5#8) = "SET VA,05" ∧ assembly (.call 0x300#12) = "CALL 300" ∧
    assembly (.skipEqReg 0#4 1#4) = "SKIP-EQ V0,V1" ∧
    assembly (.copyReg 11#4 10#4) = "COPY VB,VA" := by decide

/-! ### Fetch -/

/-- T-FET-2 and T-FET-11: the last two bytes of memory, and an odd address. -/
theorem test_fetch_edges :
    fetch standard { State.reset with pc := 0x0FFE#16 } = .ok 0x0000#16 ∧
    fetch standard { State.reset with pc := 0x0203#16, mem := [(0x203, 0x6A#8), (0x204, 0x07#8)] } =
      .ok 0x6A07#16 := by decide

/-- T-FET-3, T-FET-4, T-FET-5: the fault and a `PC` that did not advance. -/
theorem test_fetch_out_of_range :
    step { State.reset with pc := 0x1000#16 } = .next { State.reset with
      pc := 0x1000#16, fault := some (.outOfRangeAddress 0x1000 0x1000#16) } ∧
    step { State.reset with pc := 0x0FFF#16 } = .next { State.reset with
      pc := 0x0FFF#16, fault := some (.outOfRangeAddress 0x1000 0x0FFF#16) } ∧
    step { State.reset with pc := 0xFFFF#16 } = .next { State.reset with
      pc := 0xFFFF#16, fault := some (.outOfRangeAddress 0xFFFF 0xFFFF#16) } := ⟨rfl, rfl, rfl⟩

/-- T-FET-6: with 65536 bytes the second address is 65536, not 0. -/
theorem test_fetch_second_address_does_not_wrap :
    instructionStep { standard with memSize := 65536 } { State.reset with pc := 0xFFFF#16 } =
      .next { State.reset with
        pc := 0xFFFF#16, fault := some (.outOfRangeAddress 65536 0xFFFF#16) } := rfl

/-- T-FET-7 and T-FET-10: the advance wraps, and CALL pushes the wrapped value. -/
theorem test_advance_wraps :
    instructionStep { standard with memSize := 65536 } { State.reset with pc := 0xFFFE#16 } =
      .next { State.reset with pc := 0x0000#16 } ∧
    (stateOf (instructionStep { standard with memSize := 65536 }
      { State.reset with pc := 0xFFFE#16, mem := [(0xFFFE, 0x23#8)] })).map
        (fun t => (t.stack[0], t.sp, t.pc)) = some (0x0000#16, 1, 0x0300#16) := ⟨rfl, by decide⟩

/-! ### One or two tests per instruction -/

/-- T-NOP-2. -/
theorem test_nop :
    step { holding 0x0000#16 with dt := 9#8, st := 4#8, sp := 3 } =
      .next { holding 0x0000#16 with dt := 9#8, st := 4#8, sp := 3, pc := 0x0202#16 } := rfl

/-- T-CLS-3. -/
theorem test_cls :
    step { holding 0x00E0#16 with fb := litFb } =
      .next { holding 0x00E0#16 with pc := 0x0202#16 } := rfl

/-- T-RET-3 and T-RET-6: last in, first out, at both ends of the stack. -/
theorem test_ret :
    afterStep (fun t => (t.sp, t.pc)) { holding 0x00EE#16 with
      sp := 16, stack := (Vector.replicate 16 0#16).set 15 0x0ABC#16 } = some (15, 0x0ABC#16) ∧
    afterStep (fun t => (t.sp, t.pc, t.stack[0])) { holding 0x00EE#16 with
      sp := 2, stack := ((Vector.replicate 16 0#16).set 0 0x0210#16).set 1 0x0220#16 } =
      some (1, 0x0220#16, 0x0210#16) := by decide

/-- T-RET-2. -/
theorem test_ret_underflow :
    step (holding 0x00EE#16) = .next { holding 0x00EE#16 with
      pc := 0x0202#16, fault := some (.stackUnderflow 0x00EE#16 0x0200#16) } := rfl

/-- T-JMP-1 and T-JMP-5. -/
theorem test_jmp :
    afterStep (·.pc) (holding 0x1300#16) = some 0x0300#16 ∧
    afterStep (·.pc) (holding 0x1203#16) = some 0x0203#16 := by decide

/-- T-CALL-2 and T-CALL-4: the sixteenth push succeeds; a stale slot is overwritten. -/
theorem test_call :
    afterStep (fun t => (t.stack[15], t.sp, t.pc, t.fault)) { holding 0x2400#16 with sp := 15 } =
      some (0x0202#16, 16, 0x0400#16, none) ∧
    afterStep (fun t => (t.stack[3], t.sp, t.pc)) { holding 0x2210#16 with
      sp := 3, stack := (Vector.replicate 16 0#16).set 3 0x0BAD#16 } =
      some (0x0202#16, 4, 0x0210#16) := by decide

/-- T-CALL-3. -/
theorem test_call_overflow :
    step { holding 0x2400#16 with sp := 16 } = .next { holding 0x2400#16 with
      sp := 16, pc := 0x0202#16, fault := some (.stackOverflow 0x2400#16 0x0200#16) } := rfl

/-- T-SKP-1 and T-SKP-2. -/
theorem test_skipEqImm :
    afterStep (·.pc) (writeReg 3#4 0x2A#8 (holding 0x332A#16)) = some 0x0204#16 ∧
    afterStep (·.pc) (writeReg 3#4 0x2B#8 (holding 0x332A#16)) = some 0x0202#16 := by decide

/-- T-SKP-4 and T-SKP-5. -/
theorem test_skipNeqImm :
    afterStep (·.pc) (writeReg 3#4 0x2A#8 (holding 0x432A#16)) = some 0x0202#16 ∧
    afterStep (·.pc) (writeReg 3#4 0x2B#8 (holding 0x432A#16)) = some 0x0204#16 := by decide

/-- T-SKP-8 and T-SKP-9. -/
theorem test_skipEqReg :
    afterStep (·.pc) (writeReg 1#4 2#8 (writeReg 0#4 3#8 (holding 0x5010#16))) = some 0x0202#16 ∧
    afterStep (·.pc) (writeReg 4#4 0x9C#8 (holding 0x5440#16)) = some 0x0204#16 := by decide

/-- T-REG-1 and T-REG-3. -/
theorem test_setImm :
    afterStep (fun t => (readReg 10#4 t, t.pc)) (holding 0x6A05#16) = some (5#8, 0x0202#16) ∧
    afterStep (readReg 15#4) (holding 0x6FFF#16) = some 0xFF#8 := by decide

/-- T-REG-5 and T-REG-11: the sum wraps, and no flag is written. -/
theorem test_addImm :
    afterStep (fun t => (readReg 2#4 t, readReg 15#4 t)) (writeReg 2#4 250#8 (holding 0x720A#16)) =
      some (4#8, 0#8) ∧
    afterStep (readReg 15#4) (writeReg 15#4 0xF0#8 (holding 0x7F20#16)) = some 0x10#8 := by decide

/-- T-REG-12 and T-REG-15: the destination is the first register nibble. -/
theorem test_copyReg :
    afterStep (fun t => (readReg 11#4 t, readReg 10#4 t))
      (writeReg 10#4 3#8 (holding 0x8BA0#16)) = some (3#8, 3#8) ∧
    afterStep (fun t => (readReg 10#4 t, readReg 11#4 t))
      (writeReg 10#4 3#8 (holding 0x8AB0#16)) = some (0#8, 0#8) := by decide

/-- T-UNI-1. -/
theorem test_unimplemented :
    step (holding 0xD015#16) = .next { holding 0xD015#16 with
      pc := 0x0202#16, fault := some (.unimplemented 0xD015#16 0x0200#16) } := rfl

/-- R170: the codes of the four kinds. -/
theorem test_fault_codes :
    [none, some (.unimplemented 0#16 0#16), some (.stackOverflow 0#16 0#16),
      some (.stackUnderflow 0#16 0#16), some (.outOfRangeAddress 0 0#16)].map faultCode =
      [0, 1, 2, 3, 4] := by decide

/-! ### Timers, the halted machine, the host ports -/

/-- T-TMR-3 by one tick each: only the tick from 1 to 0 cues. -/
theorem test_timer_cue :
    [3#8, 2#8, 1#8, 0#8].map (fun v => reportOf .timerStep { State.reset with st := v }) =
      [some (.cue false), some (.cue false), some (.cue true), some (.cue false)] := by decide

/-- T-TMR-4 and T-TMR-5. -/
theorem test_timer_counters :
    timerStep { State.reset with dt := 255#8, st := 255#8 } =
      { State.reset with dt := 254#8, st := 254#8 } ∧
    timerStep State.reset = State.reset := ⟨rfl, rfl⟩

/-- T-HLT-1, T-HLT-3. -/
theorem test_halted :
    perform standard .instructionStep halted =
      .next (halted, .halted (.unimplemented 0xD015#16 0x0200#16)) ∧
    perform standard .timerStep { halted with st := 1#8 } =
      .next ({ halted with st := 1#8 }, .halted (.unimplemented 0xD015#16 0x0200#16)) :=
  ⟨rfl, rfl⟩

/-- T-HLT-4, T-HLT-5 and T-HLT-6. -/
theorem test_halted_host :
    perform standard (.setTimer .delay 9#8) halted = .next ({ halted with dt := 9#8 }, .ok) ∧
    (stateOf (perform standard (.setKey 3 true) halted)).map
      (fun r => (r.1.keys[3]?, r.1.fault)) = some (some true, halted.fault) ∧
    perform standard .reset halted = .next (State.reset, .ok) := ⟨rfl, by decide, rfl⟩

/-- T-RST-1. -/
theorem test_reset_memory :
    [0x00, 0x01, 0x04, 0x4B, 0x4F, 0x50, 0x200, 0xFFF].map (Memory.peek standard State.reset.mem) =
      [0xF0#8, 0x90#8, 0xF0#8, 0xF0#8, 0x80#8, 0x00#8, 0x00#8, 0x00#8] := by decide

/-- T-HOST-4: one byte is loaded; the other half of the word is the zero that was there. -/
theorem test_host_load :
    (stateOf (runOps standard [.load [0x6A#8], .instructionStep]
      (writeReg 10#4 7#8 State.reset))).map
      (fun r => (readReg 10#4 r.1, r.1.pc, r.2)) = some (0#8, 0x0202#16, [.ok, .ok]) := by decide

/-- T-HOST-1, T-HOST-2 and T-HOST-3 on a small memory: an exact fit, one byte too many, none. -/
theorem test_host_load_bounds :
    (stateOf (perform small (.load [1#8, 2#8, 3#8, 4#8]) (State.resetWith small))).map
      (fun r => (r.1.mem, r.2)) =
      some ([(0x200, 1#8), (0x201, 2#8), (0x202, 3#8), (0x203, 4#8)], .ok) ∧
    perform small (.load [1#8, 2#8, 3#8, 4#8, 5#8]) (State.resetWith small) =
      .next (State.resetWith small, .refused) ∧
    perform small (.load []) (State.resetWith small) = .next (State.resetWith small, .ok) :=
  ⟨by decide, rfl, rfl⟩

/-- T-HOST-5 and T-HOST-6. -/
theorem test_host_keys :
    (stateOf (perform standard (.setKey 15 true) State.reset)).map (·.1.keys[15]?) =
      some (some true) ∧
    perform standard (.setKey 16 true) State.reset = .next (State.reset, .refused) :=
  ⟨by decide, rfl⟩

/-- T-HOST-8: the corner (63, 31) is cell 2047, and (0, 1) is cell 64. -/
theorem test_framebuffer_index :
    (fbIndex 63 31).val = 2047 ∧ (fbIndex 0 1).val = 64 := by decide

/-- R214: the order the host owes. -/
theorem test_loadsFirst :
    loadsFirst false [.load [], .timerStep, .load [], .instructionStep, .reset, .load []] = true ∧
    loadsFirst false [.instructionStep, .load []] = false := by decide

/-- The first two words of S-11 from the placing the host's check uses. -/
theorem test_withFetchWord :
    step (State.reset.withFetchWord 16 0x6A05) =
      .next (writeReg 10#4 5#8 (advance (State.reset.withFetchWord 16 0x6A05))) ∧
    decodeTableWord 16 0x7A03 = some (.addImm 10#4 3#8) ∧ decodeTableWord 16 0xD015 = none :=
  ⟨rfl, by decide, by decide⟩

/-! ### Witnesses: each obligation's hypotheses are met, at the boundary of each clause -/

/-- `EncodeOfDecodeIsTheWord`. -/
theorem test_witness_decoded : decodeWord 0x2FFF#16 = some (.call 0xFFF#12) := by decide

/-- `BoundedReadAfterWrite`: the last address and the first one past the end. -/
theorem test_witness_bounded :
    Memory.wf standard [(0x200, 1#8)] = true ∧ 0xFFF < standard.memSize ∧
    standard.memSize ≤ 0x1000 ∧
    (match Memory.write standard [(0x200, 1#8)] 0xFFF 7#8 with
      | .ok m => Memory.read standard m 0xFFF
      | .outOfRange a => .outOfRange a) = .ok 7#8 := by decide

/-- `CanonicalMemoriesThatReadAlikeAreEqual`: two orders of writing. -/
theorem test_witness_canonical :
    Memory.wf standard (Memory.poke standard [(0x300, 2#8)] 0x200 1#8) = true ∧
    Memory.wf standard (Memory.poke standard [(0x200, 1#8)] 0x300 2#8) = true ∧
    ∀ a, Memory.peek standard (Memory.poke standard [(0x300, 2#8)] 0x200 1#8) a =
      Memory.peek standard (Memory.poke standard [(0x200, 1#8)] 0x300 2#8) a :=
  ⟨rfl, rfl, fun _ => rfl⟩

/-- `FetchJoinsTwoBytesHighFirst` and `FetchOutsideMemoryHaltsWithPcUnchanged`: the last fetch that
succeeds, and each of the two that do not. -/
theorem test_witness_fetch :
    State.reset.running ∧ (0x0FFE#16 : Word).toNat + 1 < standard.memSize ∧
    (0x0FFF#16 : Word).toNat + 1 = standard.memSize ∧
    standard.memSize ≤ (0x1000#16 : Word).toNat := by decide

/-- `StepRunsTheDecodedInstruction`, the decoded word being at the last place it fits. -/
theorem test_witness_step_runs :
    let s := { State.reset with pc := 0x0FFE#16, mem := [(0xFFE, 0x6A#8), (0xFFF, 0x05#8)] }
    s.running ∧ s.pc.toNat + 1 < standard.memSize ∧
    decode [Memory.peek standard s.mem s.pc.toNat, Memory.peek standard s.mem (s.pc.toNat + 1)] =
      .instr (.setImm 10#4 5#8) [] := by decide

/-- `UnimplementedWordHaltsAfterTheAdvance`, `FaultingStepChangesOnlyPcAndFault`,
`StepFaultsExactlyOnItsCauses`. -/
theorem test_witness_unimplemented :
    (holding 0xD015#16).running ∧ fetch standard (holding 0xD015#16) = .ok 0xD015#16 ∧
    wordWellFormed 0xD015#16 = false ∧ decodeWord 0xD015#16 = none ∧
    afterStep (·.fault) (holding 0xD015#16) =
      some (some (.unimplemented 0xD015#16 0x0200#16)) := by decide

/-- `HaltedMachineIgnoresBothSteps`, `TimerStepDecrementsAndCues` (its second clause) and
`LatchHoldsUntilReset`, with operations that do change something. -/
theorem test_witness_halted :
    halted.fault = some (.unimplemented 0xD015#16 0x0200#16) ∧
    (∀ op ∈ [Op.instructionStep, .timerStep, .setTimer .delay 9#8, .load [1#8]],
      op.resets = false) ∧
    (stateOf (runOps standard [.instructionStep, .timerStep, .setTimer .delay 9#8, .load [1#8]]
      halted)).map (fun r => (r.1.dt, r.1.fault)) = some (9#8, halted.fault) := by decide

/-- `JumpToSelfIsAFixedPoint`. -/
theorem test_witness_jump_to_self :
    (holding 0x1200#16).running ∧ fetch standard (holding 0x1200#16) = .ok (0x1#4 ++ 0x200#12) ∧
    (holding 0x1200#16).pc = (0x200#12 : Addr12).setWidth 16 := by decide

/-- `PlacedWordIsTheNextInstruction`, a word of each clause, and a `PC` that must be moved to place
a word. -/
theorem test_witness_placed :
    Memory.wf standard halted.mem = true ∧
    decodeWord 0x6A05#16 = some (.setImm 10#4 5#8) ∧ decodeWord 0xD015#16 = none ∧
    ({ halted with pc := 0x0FFF#16 }.withFetchWord 16 0x6A05).pc = 0x0200#16 ∧
    (halted.withFetchWord 16 0x6A05).pc = halted.pc := by decide

/-- `NopChangesOnlyPc`, `ClsClearsEveryCell` and the fetching clauses of the other instructions. -/
theorem test_witness_fetched :
    [0x0000#16, 0x00E0#16, 0x00EE#16, 0x2300#16, 0x332A#16, 0x432A#16, 0x5010#16].all (fun w =>
      decide ((holding w).running ∧ fetch standard (holding w) = .ok w) &&
        (decodeWord w).isSome) = true := by decide

/-- `RetPopsThePcOrUnderflows`, `PopReadsTheSlotBelowTheDepth`: `SP` at 1, 16 and 0. -/
theorem test_witness_ret :
    ({ State.reset with sp := 1 } : State).sp.val = 0 + 1 ∧
    ({ State.reset with sp := 16 } : State).sp.val = 15 + 1 ∧ 15 < stackCap ∧
    (holding 0x00EE#16).running ∧ fetch standard (holding 0x00EE#16) = .ok 0x00EE#16 ∧
    (holding 0x00EE#16).sp.val = 0 := by decide

/-- `CallPushesTheNextPcOrOverflows`, `PushWritesTheSlotAtTheDepth`: `SP` at 0, 15 and 16. -/
theorem test_witness_call :
    State.reset.sp.val < stackCap ∧ ({ State.reset with sp := 15 } : State).sp.val < stackCap ∧
    ({ holding 0x2400#16 with sp := 16 } : State).sp.val = stackCap ∧
    fetch standard { holding 0x2400#16 with sp := 16 } = .ok 0x2400#16 ∧
    0x2400#16 &&& 0xF000#16 = 0x2000#16 := by decide

/-- `CallThenRetReturnsPastTheCall`, at the last free slot. -/
theorem test_witness_call_then_ret :
    ({ State.reset with sp := 15 } : State).sp.val < stackCap ∧
    (stateOf (exec (.call 0x300#12) { State.reset with sp := 15 })).isSome = true := by decide

/-- `NestedPushesUnwindInReverse`: a full stack of sixteen, and two on top of fourteen. -/
theorem test_witness_nested :
    State.reset.sp.val + (List.replicate 16 0x0202#16).length ≤ stackCap ∧
    ({ State.reset with sp := 14 } : State).sp.val + [1#16, 2#16].length ≤ stackCap := by decide

/-- `SkipNeqImmSkipsOnDifferent` (both skips answer), the frames (`exec` answers). -/
theorem test_witness_exec :
    (stateOf (exec (.skipEqImm 3#4 0#8) State.reset)).isSome = true ∧
    (stateOf (exec (.skipNeqImm 3#4 0#8) State.reset)).isSome = true ∧
    (stateOf (step (holding 0x6A05#16))).isSome = true := by decide

/-- `OnlySetAddCopyWriteTheirRegister`: each of the three changes its register somewhere. -/
theorem test_witness_register_written :
    (stateOf (exec (.setImm 15#4 1#8) State.reset)).map (readReg 15#4) = some 1#8 ∧
    (stateOf (exec (.addImm 15#4 1#8) State.reset)).map (readReg 15#4) = some 1#8 ∧
    (stateOf (exec (.copyReg 15#4 0#4) (writeReg 0#4 1#8 State.reset))).map (readReg 15#4) =
      some 1#8 ∧ readReg 15#4 State.reset = 0#8 := by decide

/-- `OnlyTheNamedInstructionsWriteStackFbFault`: each of its five changes happens. -/
theorem test_witness_frame_changes :
    (stateOf (exec (.call 0x300#12) { State.reset with pc := 2#16 })).map
      (fun t => (t.stack[0], t.sp, t.pc)) = some (2#16, 1, 0x300#16) ∧
    (stateOf (exec .cls { State.reset with fb := litFb })).map (fun t => fbCell t 0) =
      some false ∧ fbCell { State.reset with fb := litFb } 0 = true ∧
    (stateOf (exec .ret State.reset)).map (·.fault.isSome) = some true ∧
    (stateOf (exec (.call 0x300#12) { State.reset with sp := 16 })).map (·.fault.isSome) =
      some true := by decide

/-- `TimerStepDecrementsAndCues`, `CounterFloorsAtZeroAfterKTicks`, `OneCuePerCountdown` and
`TimerStepCommutesWithAGoodStep` (T-TMR-10). -/
theorem test_witness_timers :
    ({ holding 0x0000#16 with dt := 3#8, st := 1#8 } : State).running ∧
    afterStep (·.fault) { holding 0x0000#16 with dt := 3#8, st := 1#8 } = some none ∧
    timerCue { holding 0x0000#16 with dt := 3#8, st := 1#8 } = true := by decide

/-- `HostLoadWritesAllOrNothing`: the longest block that fits and the shortest that does not. -/
theorem test_witness_host_load :
    Memory.wf standard State.reset.mem = true ∧
    standard.startAddr.toNat + 3584 ≤ standard.memSize ∧
    standard.memSize < standard.startAddr.toNat + 3585 ∧
    small.startAddr.toNat + [1#8, 2#8, 3#8, 4#8].length ≤ small.memSize := by decide

/-- `HostKeyAndTimerWritesChangeOnlyTheirTarget`: the last key and the first that is none. -/
theorem test_witness_host_key :
    State.reset.keys.length = standard.keyCount ∧ 15 < standard.keyCount ∧
    standard.keyCount ≤ 16 := by decide

/-- `EndsWellIsKPlainStepsThatEndRunning`: two steps that end well (T-FET-12), and a run whose
plain steps end halted (T-UNI-1, T-HLT-1). -/
theorem test_witness_good_run :
    endsWell standard 2 State.reset { State.reset with pc := 0x0204#16 } ∧
    (stateOf (runOps standard [.instructionStep, .instructionStep] (holding 0xD015#16))).map
      (fun r => (r.1.fault, r.2)) =
      some (some (.unimplemented 0xD015#16 0x0200#16),
        [.raised (.unimplemented 0xD015#16 0x0200#16),
          .halted (.unimplemented 0xD015#16 0x0200#16)]) := ⟨⟨rfl, rfl⟩, by decide⟩

/-- `InstructionStepReportsOkRaisedOrHalted`: each of the three reports (T-REG-1, T-UNI-1,
T-HLT-1). -/
theorem test_witness_reports :
    (holding 0x6A05#16).running ∧ afterStep (·.fault) (holding 0x6A05#16) = some none ∧
    reportOf .instructionStep (holding 0x6A05#16) = some .ok ∧
    reportOf .instructionStep (holding 0xD015#16) =
      some (.raised (.unimplemented 0xD015#16 0x0200#16)) ∧
    reportOf .instructionStep halted = some (.halted (.unimplemented 0xD015#16 0x0200#16)) := by
  decide

/-- `ResetMeetsTheMachineInvariant` and the hypotheses of the three statements that keep it: a
running state in it, and a halted one. -/
theorem test_witness_invariant :
    standard.Legal ∧ State.reset.Inv standard ∧
    State.Inv standard { State.reset with
      pc := 0x0202#16, fault := some (.stackUnderflow 0x00EE#16 0x0200#16) } :=
  ⟨by decide, ⟨by decide, trivial, rfl, rfl, by decide, by decide⟩,
    ⟨by decide, ⟨rfl, rfl, rfl⟩, rfl, rfl, by decide, by decide⟩⟩

end Sys2Proof.Tests
end

section
/-! The fetch joins two bytes, the first being the high one (R55). -/

namespace Sys2Proof

/-- R55 in numbers: joining two bytes shifts the first up by one byte. -/
theorem toNat_joinBytes (hi lo : Byte) :
    (joinBytes hi lo).toNat = hi.toNat * 256 + lo.toNat := by
  calc (joinBytes hi lo).toNat
      = hi.toNat <<< 8 ||| lo.toNat := BitVec.toNat_append hi lo
    _ = hi.toNat <<< 8 + lo.toNat := (Nat.shiftLeft_add_eq_or_of_lt lo.isLt hi.toNat).symm
    _ = hi.toNat * 256 + lo.toNat := by rw [Nat.shiftLeft_eq]

end Sys2Proof

namespace Sys2Proof.Machine

/-- Settles O12: the word of a fetch inside memory is the join of its two bytes, and the join is
the sum of R55. -/
theorem fetchJoinsTwoBytesHighFirst : Obligations.FetchJoinsTwoBytesHighFirst := by
  intro p s h
  exact ⟨_, fetch_ok h, toNat_joinBytes _ _⟩

end Sys2Proof.Machine
end

section
/-! The fields of a word are the numbers R82 states: read off the word as four nibbles, each nibble
being one hexadecimal digit. -/

namespace Sys2Proof

/-- A nibble put behind a bit vector is its last hexadecimal digit. -/
theorem toNat_append_nibble {n : Nat} (hi : BitVec n) (lo : Nibble) :
    (hi ++ lo).toNat = hi.toNat * 16 + lo.toNat := by
  calc (hi ++ lo).toNat
      = hi.toNat <<< 4 ||| lo.toNat := BitVec.toNat_append hi lo
    _ = hi.toNat <<< 4 + lo.toNat := (Nat.shiftLeft_add_eq_or_of_lt lo.isLt hi.toNat).symm
    _ = hi.toNat * 16 + lo.toNat := by rw [Nat.shiftLeft_eq]

/-- Three nibbles are the digits of a 12-bit address. -/
theorem toNat_append_three_nibbles (b c d : Nibble) :
    (b ++ c ++ d).toNat = b.toNat * 256 + c.toNat * 16 + d.toNat := by
  rw [toNat_append_nibble, toNat_append_nibble]
  omega

/-- Four nibbles are the digits of a word. -/
theorem toNat_append_four_nibbles (a b c d : Nibble) :
    (a ++ b ++ c ++ d).toNat = a.toNat * 4096 + b.toNat * 256 + c.toNat * 16 + d.toNat := by
  rw [toNat_append_nibble, toNat_append_three_nibbles]
  omega

/-- Settles O9: `x` and `y` are nibbles by definition; the word, `nn` and `nnn` are their nibbles
put together. -/
theorem fieldsAreTheStatedNumbers : Obligations.FieldsAreTheStatedNumbers := by
  intro w
  obtain ⟨a, b, c, d, rfl⟩ := word_eq_nibbles w
  rw [fieldN3_append, fieldN2_append, fieldN1_append, fieldN0_append, fieldNN_append,
    fieldNNN_append]
  exact ⟨toNat_append_four_nibbles a b c d, fieldN2_append a b c d, fieldN1_append a b c d,
    toNat_append_nibble c d, toNat_append_three_nibbles b c d⟩

end Sys2Proof
end

section
/-! What an instruction-step reports to the host (R107, R198 (a)): one lemma per report, and the
instruction that stands behind the report ok. -/

namespace Sys2Proof.Machine

theorem stepReport_ok {s t : State} (hs : s.fault = none) (ht : t.fault = none) :
    stepReport s t = .ok := by
  simp [stepReport, hs, ht]

theorem stepReport_raised {s t : State} {r : FaultRecord} (hs : s.fault = none)
    (ht : t.fault = some r) : stepReport s t = .raised r := by
  simp [stepReport, hs, ht]

theorem stepReport_halted {s : State} {r : FaultRecord} (hs : s.fault = some r) (t : State) :
    stepReport s t = .halted r := by
  simp [stepReport, hs]

theorem perform_instructionStep {p : Params} {s t : State} (h : instructionStep p s = .next t) :
    perform p .instructionStep s = .next (t, stepReport s t) := by
  simp [perform, h]

theorem instructionStep_halted (p : Params) {s : State} {r : FaultRecord}
    (h : s.fault = some r) : instructionStep p s = .next s := by
  simp [instructionStep, h]

/-- A step that ends running executed an instruction: a halted machine stays halted (R101),
and both faults the step itself raises (R102, R150) leave a record in the latch. -/
theorem instructionStep_executes_of_running {p : Params} {s t : State}
    (h : instructionStep p s = .next t) (ht : t.fault = none) :
    ∃ w i, fetch p s = .ok w ∧ decodeWord w = some i ∧ exec i (advance s) = .next t := by
  rcases instructionStep_cases p s with ⟨r, hr, he⟩ | ⟨-, a, -, he⟩ | ⟨-, w, -, -, he⟩ |
    ⟨-, w, i, hw, hi, he⟩ <;> rw [he] at h
  · cases h
    simp [hr] at ht
  · cases h
    simp at ht
  · cases h
    simp at ht
  · exact ⟨w, i, hw, hi, h⟩

/-- Settles O53: the report is read off the latch before and after the step. -/
theorem instructionStepReportsOkRaisedOrHalted :
    Obligations.InstructionStepReportsOkRaisedOrHalted := by
  refine ⟨fun p s t hs h => ⟨fun ht => ⟨?_, instructionStep_executes_of_running h ht⟩,
    fun r hr => ?_⟩, fun p s r hr => ?_⟩
  · rw [perform_instructionStep h, stepReport_ok hs ht]
  · rw [perform_instructionStep h, stepReport_raised hs hr]
  · rw [perform_instructionStep (instructionStep_halted p hr), stepReport_halted hr]

end Sys2Proof.Machine
end

section
/-! The three words of family 0 (R105, R110 to R112): each is the encoding of its instruction, and
no other word decodes to it. -/

namespace Sys2Proof

/-- The instructions of family 0. -/
def Instr.inFamily0 (i : Instr) : Prop := i = .nop ∨ i = .cls ∨ i = .ret

theorem decodeWord_encodeWord_of_inFamily0 {i : Instr} (hi : i.inFamily0) :
    decodeWord (encodeWord i) = some i := by
  rcases hi with rfl | rfl | rfl <;> rfl

/-- The family nibble of a word that decodes to an instruction of family 0 is 0: every other
family's line of R105 gives an instruction of its own or none. -/
theorem family_eq_zero_of_decodeWord {a b c d : Nibble} {i : Instr} (hi : i.inFamily0)
    (h : decodeWord (a ++ b ++ c ++ d) = some i) : a = 0#4 := by
  rcases family_cases a with rfl | rfl | rfl | rfl | rfl | rfl | rfl | rfl | rfl | h9
  · rfl
  iterate 8
    · rw [decodeWord_append] at h
      rcases hi with rfl | rfl | rfl <;> simp at h
  · rw [decodeWord_append_of_le b c d h9] at h
    cases h

/-- R105's line for family 0: what it gives pins the three other nibbles. -/
theorem encodeWord_of_decodeFamily0 {b c d : Nibble} {i : Instr}
    (h : decodeFamily0 b c d = some i) : 0#4 ++ b ++ c ++ d = encodeWord i := by
  rcases decodeFamily0_cases b c d with ⟨rfl, rfl, rfl, he⟩ | ⟨rfl, rfl, rfl, he⟩ |
    ⟨rfl, rfl, rfl, he⟩ | ⟨-, -, -, he⟩ <;> rw [he] at h
  iterate 3
    · cases h
      rfl
  · cases h

/-- An instruction of family 0 is what its own word decodes to, and no other word does. -/
theorem decodeWord_eq_some_iff_of_inFamily0 {i : Instr} (hi : i.inFamily0) (w : Word) :
    decodeWord w = some i ↔ w = encodeWord i := by
  constructor
  · intro h
    obtain ⟨a, b, c, d, rfl⟩ := word_eq_nibbles w
    obtain rfl := family_eq_zero_of_decodeWord hi h
    rw [decodeWord_append] at h
    exact encodeWord_of_decodeFamily0 h
  · rintro rfl
    exact decodeWord_encodeWord_of_inFamily0 hi

theorem decodeWord_eq_nop_iff (w : Word) : decodeWord w = some .nop ↔ w = 0x0000#16 :=
  decodeWord_eq_some_iff_of_inFamily0 (.inl rfl) w

theorem decodeWord_eq_cls_iff (w : Word) : decodeWord w = some .cls ↔ w = 0x00E0#16 :=
  decodeWord_eq_some_iff_of_inFamily0 (.inr (.inl rfl)) w

theorem decodeWord_eq_ret_iff (w : Word) : decodeWord w = some .ret ↔ w = 0x00EE#16 :=
  decodeWord_eq_some_iff_of_inFamily0 (.inr (.inr rfl)) w

end Sys2Proof
end

section
/-! NOP, CLS and RET (R110 to R112): what each does as an execute arm, and what a step that fetches
its word does. -/

namespace Sys2Proof.Machine

/-! ### The step -/

/-- R100 to R105 on a running machine whose fetched word is an instruction: `PC` advances, then the
instruction executes. -/
theorem instructionStep_of_decodeWord {p : Params} {s : State} {w : Word} {i : Instr}
    (hs : s.running) (hw : fetch p s = .ok w) (hi : decodeWord w = some i) :
    instructionStep p s = exec i (advance s) := by
  simp [instructionStep, hs, hw, hi]

/-! ### The execute arms -/

theorem exec_nop (s : State) : exec .nop s = .next s := rfl

theorem exec_cls (s : State) : exec .cls s = .next (clearFb s) := rfl

theorem exec_ret_of_succ {s : State} {k : Nat} (h : s.sp.val = k + 1) :
    exec .ret s = .next (setPc (s.stack[k]'(by have := s.sp.isLt; omega))
      (setSp ⟨k, by have := s.sp.isLt; omega⟩ s)) := by
  simp [exec, execRet, pop_of_succ h]

theorem exec_ret_of_zero {s : State} (h : s.sp.val = 0) :
    exec .ret s = .next (raise (.stackUnderflow (encodeWord .ret) (fetchPcOf s)) s) := by
  simp [exec, execRet, pop_of_zero h]

/-- R111: no cell is lit after the clear, whatever the framebuffer held. -/
theorem fbCell_clearFb (s : State) (j : Fin fbCells) : fbCell (clearFb s) j = false := by
  simp [fbCell, darkFb]

/-! ### The obligations -/

/-- Settles O23: a step that fetches NOP's word is its own advance and nothing more. -/
theorem nopChangesOnlyPc : Obligations.NopChangesOnlyPc := by
  refine ⟨decodeWord_eq_nop_iff, exec_nop, fun p s hs hw => ?_⟩
  rw [instructionStep_of_decodeWord hs hw ((decodeWord_eq_nop_iff _).2 rfl), exec_nop]
  rfl

/-- Settles O24: the next state of CLS is `clearFb`, after the advance when it is a step. -/
theorem clsClearsEveryCell : Obligations.ClsClearsEveryCell := by
  refine ⟨decodeWord_eq_cls_iff, fun s => ⟨clearFb s, exec_cls s, fbCell_clearFb s, rfl⟩,
    fun p s hs hw => ⟨clearFb (advance s), ?_, rfl, fbCell_clearFb (advance s)⟩⟩
  rw [instructionStep_of_decodeWord hs hw ((decodeWord_eq_cls_iff _).2 rfl), exec_cls]

/-- Settles O25: RET is the pop where there is a slot below the depth; at depth 0 the pop is refused
and the fault is raised on a running machine, so it is latched. -/
theorem retPopsThePcOrUnderflows : Obligations.RetPopsThePcOrUnderflows := by
  refine ⟨decodeWord_eq_ret_iff, fun s k hk hsp => ⟨_, exec_ret_of_succ hsp, rfl, rfl, rfl⟩,
    fun p s hs hw hsp => ?_⟩
  rw [instructionStep_of_decodeWord hs hw ((decodeWord_eq_ret_iff _).2 rfl),
    exec_ret_of_zero (s := advance s) hsp, raise_running _ (s := advance s) hs,
    fetchPcOf_advance]
  rfl

end Sys2Proof.Machine
end

section
/-! Encoding inverts decoding (R81 to R86): a word decodes to an instruction exactly when it is the
word that instruction is encoded as. For JMP and CALL that is the family nibble and the address. -/

namespace Sys2Proof

/-- Each line of R105 gives back the nibbles it has matched: as they stand for the formats of
registers, joined into an address or an immediate for the others (R83). -/
theorem eq_encodeWord_of_decodeWord {w : Word} {i : Instr} (h : decodeWord w = some i) :
    w = encodeWord i := by
  obtain ⟨a, b, c, d, rfl⟩ := word_eq_nibbles w
  have h9 : ¬ 9 ≤ a.toNat := fun h9 => by simp [decodeWord_append_of_le b c d h9] at h
  rw [decodeWord_append] at h
  rcases family_cases a with rfl | rfl | rfl | rfl | rfl | rfl | rfl | rfl | rfl | h9'
  · exact encodeWord_of_decodeFamily0 h
  iterate 2
    · cases h
      exact (append_address _ b c d).symm
  iterate 2
    · cases h
      exact (append_immediate _ b c d).symm
  · obtain ⟨rfl, hi⟩ := Option.ite_none_right_eq_some.1 h
    cases hi
    rfl
  iterate 2
    · cases h
      exact (append_immediate _ b c d).symm
  · obtain ⟨rfl, hi⟩ := Option.ite_none_right_eq_some.1 h
    cases hi
    rfl
  · exact absurd h9' h9

/-- The encoded word, split into its four nibbles, selects its own line of R105. -/
theorem decodeWord_encodeWord (i : Instr) : decodeWord (encodeWord i) = some i := by
  cases i with
  | nop | cls | ret => rfl
  | jmp nnn | call nnn =>
    obtain ⟨b, c, d, rfl⟩ := address_eq_nibbles nnn
    rw [encodeWord, append_address, decodeWord_append]
    rfl
  | skipEqImm x nn | skipNeqImm x nn | setImm x nn | addImm x nn =>
    obtain ⟨c, d, rfl⟩ := byte_eq_nibbles nn
    rw [encodeWord, append_immediate, decodeWord_append]
    rfl
  | skipEqReg x y | copyReg x y =>
    rw [encodeWord, decodeWord_append]
    rfl

theorem decodeWord_eq_some_iff (w : Word) (i : Instr) :
    decodeWord w = some i ↔ w = encodeWord i :=
  ⟨eq_encodeWord_of_decodeWord, fun h => h ▸ decodeWord_encodeWord i⟩

/-- A word of format A (R83) is known by its masked family and its low twelve bits. -/
theorem eq_append_address_iff (w : Word) (n : Nibble) (nnn : Addr12) :
    w = n ++ nnn ↔ w &&& 0xF000#16 = n ++ 0#12 ∧ fieldNNN w = nnn := by
  constructor
  · rintro rfl
    exact ⟨Laws.append_and_family n nnn, BitVec.extractLsb'_append_eq_right⟩
  · rintro ⟨hfam, hnnn⟩
    obtain ⟨a, b, c, d, rfl⟩ := word_eq_nibbles w
    rw [fieldNNN_append] at hnnn
    rw [← append_address, hnnn] at hfam ⊢
    rw [(BitVec.append_left_inj _).1 ((Laws.append_and_family a nnn).symm.trans hfam)]

theorem decodeWord_eq_jmp_iff (w : Word) (nnn : Addr12) : decodeWord w = some (.jmp nnn) ↔
    w &&& 0xF000#16 = 0x1000#16 ∧ w.extractLsb' 0 12 = nnn :=
  (decodeWord_eq_some_iff w (.jmp nnn)).trans (eq_append_address_iff w 1#4 nnn)

theorem decodeWord_eq_call_iff (w : Word) (nnn : Addr12) : decodeWord w = some (.call nnn) ↔
    w &&& 0xF000#16 = 0x2000#16 ∧ w.extractLsb' 0 12 = nnn :=
  (decodeWord_eq_some_iff w (.call nnn)).trans (eq_append_address_iff w 2#4 nnn)

end Sys2Proof
end

section
/-! JMP and CALL (R120, R121, R173): what each does as an execute arm, and what a step that fetches
a CALL does. -/

namespace Sys2Proof.Machine

/-- R84: an address operand is the absolute address, neither scaled nor extended with ones. -/
theorem toNat_addressOperand (nnn : Addr12) : (addressOperand nnn).toNat = nnn.toNat :=
  BitVec.toNat_setWidth_of_le (by decide)

theorem exec_jmp (nnn : Addr12) (s : State) :
    exec (.jmp nnn) s = .next (setPc (addressOperand nnn) s) := rfl

theorem exec_call_of_lt (nnn : Addr12) {s : State} (h : s.sp.val < stackCap) :
    exec (.call nnn) s = .next (setPc (addressOperand nnn)
      (setSp ⟨s.sp.val + 1, Nat.succ_lt_succ h⟩ (setStack (s.stack.set s.sp.val s.pc h) s))) := by
  simp [exec, execCall, push_of_lt s.pc h]

theorem exec_call_of_full (nnn : Addr12) {s : State} (h : s.sp.val = stackCap) :
    exec (.call nnn) s =
      .next (raise (.stackOverflow (encodeWord (.call nnn)) (fetchPcOf s)) s) := by
  simp [exec, execCall, push_of_full s.pc h]

/-- R173 as a step: the advance stands, and the record holds the fetched word, which is the CALL's
own, and the `PC` it was fetched at. -/
theorem instructionStep_call_of_full {p : Params} {s : State} {w : Word} {nnn : Addr12}
    (hs : s.running) (hw : fetch p s = .ok w) (hi : decodeWord w = some (.call nnn))
    (h : s.sp.val = stackCap) :
    instructionStep p s = .next (latch (.stackOverflow w s.pc) (advance s)) := by
  rw [instructionStep_of_decodeWord hs hw hi, exec_call_of_full nnn (s := advance s) h,
    raise_running _ (s := advance s) hs, fetchPcOf_advance, ← eq_encodeWord_of_decodeWord hi]

/-- Settles O26: the next state of JMP is `setPc` of its address operand. -/
theorem jmpSetsPcToTheAddress : Obligations.JmpSetsPcToTheAddress :=
  ⟨decodeWord_eq_jmp_iff, fun nnn s => ⟨_, exec_jmp nnn s, toNat_addressOperand nnn, rfl⟩⟩

/-- Settles O27: below the capacity CALL is the push and the jump, from the advanced state when it is
a step; at the capacity the push is refused and the fault is raised on a running machine. -/
theorem callPushesTheNextPcOrOverflows : Obligations.CallPushesTheNextPcOrOverflows := by
  refine ⟨decodeWord_eq_call_iff, fun nnn s h => ?_, fun p s w nnn h hs hw hi => ?_,
    fun p s w hs hw hfam hsp => ?_⟩
  · exact ⟨_, exec_call_of_lt nnn h, Vector.getElem_set_self h,
      fun k hk hne => Vector.getElem_set_ne h hk hne.symm, rfl, toNat_addressOperand nnn, rfl⟩
  · rw [instructionStep_of_decodeWord hs hw hi, exec_call_of_lt nnn (s := advance s) h]
    exact ⟨_, rfl, Vector.getElem_set_self h, rfl, toNat_addressOperand nnn⟩
  · exact instructionStep_call_of_full hs hw ((decodeWord_eq_call_iff w _).2 ⟨hfam, rfl⟩) hsp

end Sys2Proof.Machine
end

section
/-! The formats `XI` and `XY` (R83): a word of either is known by its masked pattern and its fields;
with that, the words of the three skips (R130 to R132). -/

namespace Sys2Proof

/-- Format `XI`: the masked family, the register field and the low byte. -/
theorem eq_append_immediate_iff (w : Word) (n x : Nibble) (nn : Byte) :
    w = n ++ x ++ nn ↔ w &&& 0xF000#16 = n ++ 0#12 ∧ fieldX w = x ∧ fieldNN w = nn := by
  constructor
  · rintro rfl
    refine ⟨Laws.append_and_family_xi n x nn, ?_, BitVec.extractLsb'_append_eq_right⟩
    obtain ⟨c, d, rfl⟩ := byte_eq_nibbles nn
    rw [append_immediate, fieldX, fieldN2_append]
  · rintro ⟨hfam, hx, hnn⟩
    obtain ⟨a, b, c, d, rfl⟩ := word_eq_nibbles w
    rw [fieldX, fieldN2_append] at hx
    rw [fieldNN_append] at hnn
    rw [← append_immediate, hx, hnn] at hfam ⊢
    rw [(BitVec.append_left_inj _).1 ((Laws.append_and_family_xi a x nn).symm.trans hfam)]

/-- Format `XY`: the masked first and last nibble and the two register fields. -/
theorem eq_append_registers_iff (w : Word) (n x y z : Nibble) :
    w = n ++ x ++ y ++ z ↔ w &&& 0xF00F#16 = n ++ 0#8 ++ z ∧ fieldX w = x ∧ fieldY w = y := by
  constructor
  · rintro rfl
    exact ⟨Laws.append_and_xy n x y z, fieldN2_append n x y z, fieldN1_append n x y z⟩
  · rintro ⟨hmask, hx, hy⟩
    obtain ⟨a, b, c, d, rfl⟩ := word_eq_nibbles w
    rw [fieldX, fieldN2_append] at hx
    rw [fieldY, fieldN1_append] at hy
    rw [Laws.append_and_xy] at hmask
    have hd : d = z := by
      simpa only [BitVec.extractLsb'_append_eq_right] using
        congrArg (BitVec.extractLsb' 0 4) hmask
    rw [hd, BitVec.append_left_inj, BitVec.append_left_inj] at hmask
    rw [hmask, hx, hy, hd]

theorem decodeWord_eq_skipEqImm_iff (w : Word) (x : Nibble) (nn : Byte) :
    decodeWord w = some (.skipEqImm x nn) ↔
      w &&& 0xF000#16 = 0x3000#16 ∧ w.extractLsb' 8 4 = x ∧ w.extractLsb' 0 8 = nn :=
  (decodeWord_eq_some_iff w (.skipEqImm x nn)).trans (eq_append_immediate_iff w 3#4 x nn)

theorem decodeWord_eq_skipNeqImm_iff (w : Word) (x : Nibble) (nn : Byte) :
    decodeWord w = some (.skipNeqImm x nn) ↔
      w &&& 0xF000#16 = 0x4000#16 ∧ w.extractLsb' 8 4 = x ∧ w.extractLsb' 0 8 = nn :=
  (decodeWord_eq_some_iff w (.skipNeqImm x nn)).trans (eq_append_immediate_iff w 4#4 x nn)

theorem decodeWord_eq_skipEqReg_iff (w : Word) (x y : Nibble) :
    decodeWord w = some (.skipEqReg x y) ↔
      w &&& 0xF00F#16 = 0x5000#16 ∧ w.extractLsb' 8 4 = x ∧ w.extractLsb' 4 4 = y :=
  (decodeWord_eq_some_iff w (.skipEqReg x y)).trans (eq_append_registers_iff w 5#4 x y 0#4)

end Sys2Proof
end

section
/-! The three conditional skips (R130 to R132): what each does as an execute arm, and what a step
that fetches one does. -/

namespace Sys2Proof.Machine

theorem bytesEqual_eq_true_iff (a b : Byte) : bytesEqual a b = true ↔ a = b := beq_iff_eq

/-! ### The execute arms -/

theorem exec_skipEqImm (x : Nibble) (nn : Byte) (s : State) :
    exec (.skipEqImm x nn) s =
      .next (setPc (if readReg x s = nn then s.pc + 2 else s.pc) s) := by
  simp only [exec, execSkipEqImm, skipIf_eq, bytesEqual_eq_true_iff, registerOperand,
    immediateOperand]

theorem exec_skipNeqImm (x : Nibble) (nn : Byte) (s : State) :
    exec (.skipNeqImm x nn) s =
      .next (setPc (if readReg x s ≠ nn then s.pc + 2 else s.pc) s) := by
  simp only [exec, execSkipNeqImm, skipIf_eq, Bool.not_eq_true', ← Bool.not_eq_true,
    bytesEqual_eq_true_iff, registerOperand, immediateOperand, ne_eq]

theorem exec_skipEqReg (x y : Nibble) (s : State) :
    exec (.skipEqReg x y) s =
      .next (setPc (if readReg x s = readReg y s then s.pc + 2 else s.pc) s) := by
  simp only [exec, execSkipEqReg, skipIf_eq, bytesEqual_eq_true_iff, registerOperand]

/-- A skipping arm leaves another `PC` than the arm that does not skip, wrap-around included. -/
theorem ite_pc_add_two_eq_iff (c : Prop) [Decidable c] (a : Word) :
    (if c then a + 2 else a) = a + 2 ↔ c := by
  have hne : a ≠ a + 2 := by bv_omega
  by_cases hc : c
  · rw [if_pos hc]
    exact iff_of_true rfl hc
  · rw [if_neg hc]
    exact iff_of_false hne hc

/-! ### The step -/

/-- A skip after the advance of R103: the two additions of 2 are one of 4, modulo 65536. -/
theorem instructionStep_of_skip {p : Params} {s : State} {w : Word} {i : Instr} {c : Prop}
    [Decidable c] (hs : s.running) (hw : fetch p s = .ok w) (hi : decodeWord w = some i)
    (hexec : exec i (advance s) =
      .next (setPc (if c then (advance s).pc + 2 else (advance s).pc) (advance s))) :
    instructionStep p s = .next { s with pc := if c then s.pc + 4 else s.pc + 2 } := by
  have htwice : s.pc + 2 + 2 = s.pc + 4 := BitVec.add_assoc s.pc 2 2
  rw [instructionStep_of_decodeWord hs hw hi, hexec, advance_pc, htwice]
  rfl

/-! ### The obligations -/

/-- Settles O28: the next state of SKIP-EQ Vx,nn is `setPc` of one of two addresses, chosen by the
comparison; the advance leaves the registers it reads alone. -/
theorem skipEqImmSkipsOnEqual : Obligations.SkipEqImmSkipsOnEqual :=
  ⟨decodeWord_eq_skipEqImm_iff, exec_skipEqImm, fun _ s _ x nn hs hw hi =>
    instructionStep_of_skip hs hw hi (exec_skipEqImm x nn (advance s))⟩

/-- Settles O29: SKIP-NEQ Vx,nn is SKIP-EQ Vx,nn with the condition negated, and for each of them
`PC` has moved exactly when its condition holds. -/
theorem skipNeqImmSkipsOnDifferent : Obligations.SkipNeqImmSkipsOnDifferent := by
  refine ⟨decodeWord_eq_skipNeqImm_iff, exec_skipNeqImm, fun _ s _ x nn hs hw hi =>
    instructionStep_of_skip hs hw hi (exec_skipNeqImm x nn (advance s)),
    fun x nn s t u ht hu => ?_⟩
  rw [exec_skipEqImm] at ht
  rw [exec_skipNeqImm] at hu
  cases ht
  cases hu
  rw [setPc_pc, setPc_pc, ite_pc_add_two_eq_iff, ite_pc_add_two_eq_iff, not_ne_iff]

/-- Settles O30: as O28, with a second register in the place of the immediate. -/
theorem skipEqRegSkipsOnEqual : Obligations.SkipEqRegSkipsOnEqual :=
  ⟨decodeWord_eq_skipEqReg_iff, exec_skipEqReg, fun _ s _ x y hs hw hi =>
    instructionStep_of_skip hs hw hi (exec_skipEqReg x y (advance s))⟩

end Sys2Proof.Machine
end

section
/-! The words of SET, ADD and COPY (R83, R140 to R142). -/

namespace Sys2Proof

theorem decodeWord_eq_setImm_iff (w : Word) (x : Nibble) (nn : Byte) :
    decodeWord w = some (.setImm x nn) ↔
      w &&& 0xF000#16 = 0x6000#16 ∧ w.extractLsb' 8 4 = x ∧ w.extractLsb' 0 8 = nn :=
  (decodeWord_eq_some_iff w (.setImm x nn)).trans (eq_append_immediate_iff w 6#4 x nn)

theorem decodeWord_eq_addImm_iff (w : Word) (x : Nibble) (nn : Byte) :
    decodeWord w = some (.addImm x nn) ↔
      w &&& 0xF000#16 = 0x7000#16 ∧ w.extractLsb' 8 4 = x ∧ w.extractLsb' 0 8 = nn :=
  (decodeWord_eq_some_iff w (.addImm x nn)).trans (eq_append_immediate_iff w 7#4 x nn)

theorem decodeWord_eq_copyReg_iff (w : Word) (x y : Nibble) :
    decodeWord w = some (.copyReg x y) ↔
      w &&& 0xF00F#16 = 0x8000#16 ∧ w.extractLsb' 8 4 = x ∧ w.extractLsb' 4 4 = y :=
  (decodeWord_eq_some_iff w (.copyReg x y)).trans (eq_append_registers_iff w 8#4 x y 0#4)

end Sys2Proof
end

section
/-! SET, ADD and COPY as execute arms (R140 to R143): each is one register write. -/

namespace Sys2Proof.Machine

/-- R141 in numbers. -/
theorem toNat_addBytes (a b : Byte) : (addBytes a b).toNat = (a.toNat + b.toNat) % 256 := by
  calc (addBytes a b).toNat
      = (a.toNat + b.toNat) % 256 % 256 := BitVec.toNat_ofNat _ 8
    _ = (a.toNat + b.toNat) % 256 := Nat.mod_mod _ 256

theorem exec_setImm (x : Nibble) (nn : Byte) (s : State) :
    exec (.setImm x nn) s = .next (writeReg x nn s) := rfl

theorem exec_addImm (x : Nibble) (nn : Byte) (s : State) :
    exec (.addImm x nn) s = .next (writeReg x (addBytes (readReg x s) nn) s) := rfl

theorem exec_copyReg (x y : Nibble) (s : State) :
    exec (.copyReg x y) s = .next (writeReg x (readReg y s) s) := rfl

/-- An arm that is one register write: `V[x]` holds the written byte, every other register and
every other field is what it was. -/
theorem exec_changes_only_register {i : Instr} {x : Nibble} {b : Byte} {s : State}
    (h : exec i s = .next (writeReg x b s)) :
    ∃ t, exec i s = .next t ∧ readReg x t = b ∧
      (∀ r, r ≠ x → readReg r t = readReg r s) ∧ t = { s with v := t.v } :=
  ⟨_, h, readReg_writeReg_same x b s, fun _ hr => readReg_writeReg_other b s hr, rfl⟩

/-- Settles O31: SET writes its immediate as it stands. -/
theorem setLoadsTheImmediate : Obligations.SetLoadsTheImmediate :=
  ⟨decodeWord_eq_setImm_iff, fun x nn s => exec_changes_only_register (exec_setImm x nn s)⟩

/-- Settles O32: ADD writes the register add of the old `V[x]` and the immediate, which is the sum
modulo 256; no carry goes to `VF`, since only register `x` is written. -/
theorem addWrapsModulo256 : Obligations.AddWrapsModulo256 := by
  refine ⟨decodeWord_eq_addImm_iff, fun x nn s => ?_⟩
  obtain ⟨t, hexec, hsum, hframe⟩ := exec_changes_only_register (exec_addImm x nn s)
  exact ⟨t, hexec, hsum ▸ toNat_addBytes (readReg x s) nn, hframe⟩

/-- Settles O33: COPY writes what `V[y]` held before the write, so `x = y` needs no case of its
own. -/
theorem copyMovesTheRegister : Obligations.CopyMovesTheRegister :=
  ⟨decodeWord_eq_copyReg_iff, fun x y s => exec_changes_only_register (exec_copyReg x y s)⟩

end Sys2Proof.Machine
end

section
/-! A word that selects no row of the opcode map decodes to no instruction (R86): the words that
do decode are the encoded ones (R85), and each of those selects its instruction's row. -/

namespace Sys2Proof

/-- The per-instruction statements `EncodingRow`, put together. -/
theorem row_selects_encodeWord (i : Instr) : i.row.selects (encodeWord i) = true := by
  cases i with
  | nop => exact Laws.EncodingRow.nop
  | cls => exact Laws.EncodingRow.cls
  | ret => exact Laws.EncodingRow.ret
  | jmp nnn => exact Laws.EncodingRow.jmp nnn
  | call nnn => exact Laws.EncodingRow.call nnn
  | skipEqImm x nn => exact Laws.EncodingRow.skipEqImm x nn
  | skipNeqImm x nn => exact Laws.EncodingRow.skipNeqImm x nn
  | skipEqReg x y => exact Laws.EncodingRow.skipEqReg x y
  | setImm x nn => exact Laws.EncodingRow.setImm x nn
  | addImm x nn => exact Laws.EncodingRow.addImm x nn
  | copyReg x y => exact Laws.EncodingRow.copyReg x y

theorem row_mem_opcodeMap (i : Instr) : i.row ∈ opcodeMap := List.getElem_mem _

theorem wordWellFormed_encodeWord (i : Instr) : wordWellFormed (encodeWord i) = true :=
  List.any_eq_true.2 ⟨i.row, row_mem_opcodeMap i, row_selects_encodeWord i⟩

theorem decodeWord_eq_none_of_wordWellFormed_eq_false {w : Word} (h : wordWellFormed w = false) :
    decodeWord w = none := by
  refine Option.eq_none_iff_forall_ne_some.2 fun i hi => ?_
  rw [eq_encodeWord_of_decodeWord hi, wordWellFormed_encodeWord] at h
  cases h

end Sys2Proof

namespace Sys2Proof.Machine

/-- R150 as a step: the advance of R103 stands, and the record holds the fetched word and the `PC`
it was fetched at. -/
theorem instructionStep_of_decodeWord_eq_none {p : Params} {s : State} {w : Word}
    (hs : s.running) (hw : fetch p s = .ok w) (hi : decodeWord w = none) :
    instructionStep p s = .next (latch (.unimplemented w s.pc) (advance s)) := by
  simp [instructionStep, hs, hw, hi, raise_running]

/-- Settles O15: a word outside the opcode map decodes to no instruction, so the step is the
advance and the latch. -/
theorem unimplementedWordHaltsAfterTheAdvance :
    Obligations.UnimplementedWordHaltsAfterTheAdvance := by
  intro p s w hs hw hform
  rw [instructionStep_of_decodeWord_eq_none hs hw
    (decodeWord_eq_none_of_wordWellFormed_eq_false hform)]
  rfl

end Sys2Proof.Machine
end

section
/-! The timer-step as a host operation (R160, R163, R165): its state and its report, on a running
and on a halted machine. -/

namespace Sys2Proof.Machine

theorem perform_timerStep (p : Params) (s : State) :
    perform p .timerStep s = .next (timerStep s, timerReport s) := rfl

theorem timerReport_running {s : State} (h : s.fault = none) :
    timerReport s = .cue (cueOf s) := by
  simp [timerReport, h]

theorem timerReport_halted {s : State} {r : FaultRecord} (h : s.fault = some r) :
    timerReport s = .halted r := by
  simp [timerReport, h]

/-- The cue in numbers: it reads the sound counter before the decrement. -/
theorem cueOf_eq_true_iff (s : State) : cueOf s = true ↔ s.st.toNat = 1 :=
  beq_iff_eq.trans BitVec.toNat_inj.symm

/-- Settles O41: on a running machine the next state is `setTimers` of the two decrements, each of
which floors at zero, and the report is the cue; on a halted machine the state stays and the report
is the record. -/
theorem timerStepDecrementsAndCues : Obligations.TimerStepDecrementsAndCues := by
  refine ⟨fun p s hs => ?_, fun p s r hr => ?_⟩
  · rw [perform_timerStep, timerStep_running hs, timerReport_running hs]
    exact ⟨_, _, rfl, decrement_toNat s.dt, decrement_toNat s.st, cueOf_eq_true_iff s, rfl⟩
  · rw [perform_timerStep, timerStep_halted hr, timerReport_halted hr]

end Sys2Proof.Machine
end

section
/-! Reset and construct as host operations (R191, R192): neither reads the state before it. -/

namespace Sys2Proof.Machine

theorem perform_reset (p : Params) (s : State) :
    perform p .reset s = .next (State.resetWith p, .ok) := rfl

theorem perform_construct (p : Params) (s : State) :
    perform p .construct s = .next (State.resetWith p, .ok) := rfl

/-- Settles O2: both operations answer the reset state of the parameters, a constant in the state. -/
theorem resetAndConstructIgnoreThePriorState :
    Obligations.ResetAndConstructIgnoreThePriorState :=
  fun p s => ⟨perform_reset p s, perform_construct p s⟩

end Sys2Proof.Machine
end

section
/-! A run of plain instruction-steps and the run that ends at the latch (R206, R177, log entry 5):
one lemma for what a first step does to each, then the two compared step by step. -/

namespace Sys2Proof.Machine

/-! ### The first step of a run -/

/-- R199: a run of operations is its first operation and the run from the state that leaves. -/
theorem runOps_cons_eq_next_iff {p : Params} {op : Op} {ops : List Op} {s t : State}
    {rs : List Report} :
    runOps p (op :: ops) s = .next (t, rs) ↔
      ∃ s' r rs', perform p op s = .next (s', r) ∧ runOps p ops s' = .next (t, rs') ∧
        rs = r :: rs' := by
  constructor
  · intro h
    simp only [runOps] at h
    split at h
    · cases h
    · cases h
    next s' r hperform =>
      split at h <;> cases h
      next rs' hops => exact ⟨s', r, rs', hperform, hops, rfl⟩
  · rintro ⟨s', r, rs', hperform, hops, rfl⟩
    simp [runOps, hperform, hops]

theorem perform_instructionStep_eq_next_iff {p : Params} {s t : State} {r : Report} :
    perform p .instructionStep s = .next (t, r) ↔
      instructionStep p s = .next t ∧ r = stepReport s t := by
  constructor
  · intro h
    simp only [perform] at h
    split at h <;> cases h
    next hstep => exact ⟨hstep, rfl⟩
  · rintro ⟨hstep, rfl⟩
    exact perform_instructionStep hstep

theorem runOps_replicate_succ_eq_next_iff {p : Params} {k : Nat} {s t : State}
    {rs : List Report} :
    runOps p (List.replicate (k + 1) .instructionStep) s = .next (t, rs) ↔
      ∃ s' rs', instructionStep p s = .next s' ∧
        runOps p (List.replicate k .instructionStep) s' = .next (t, rs') ∧
        rs = stepReport s s' :: rs' := by
  simp only [List.replicate_succ, runOps_cons_eq_next_iff, perform_instructionStep_eq_next_iff]
  constructor
  · rintro ⟨s', _, rs', ⟨hstep, rfl⟩, hrun, rfl⟩
    exact ⟨s', rs', hstep, hrun, rfl⟩
  · rintro ⟨s', rs', hstep, hrun, rfl⟩
    exact ⟨s', _, rs', ⟨hstep, rfl⟩, hrun, rfl⟩

theorem runToLatch_succ_running {p : Params} {s s' : State} (k : Nat) (hs : s.running)
    (hstep : instructionStep p s = .next s') :
    runToLatch p (k + 1) s = runToLatch p k s' := by
  simp [runToLatch, stopAtLatch, hs, hstep]

theorem runToLatch_succ_halted {p : Params} {s : State} {r : FaultRecord} (k : Nat)
    (hs : s.fault = some r) : runToLatch p (k + 1) s = .fault (.halted r) := by
  simp [runToLatch, stopAtLatch, hs]

theorem endsWell_succ_iff {p : Params} {k : Nat} {s t : State} :
    endsWell p (k + 1) s t ↔
      s.running ∧ ∃ s', instructionStep p s = .next s' ∧ endsWell p k s' t := by
  constructor
  · rintro ⟨hrun, ht⟩
    rcases hs : s.fault with _ | r
    · simp only [runToLatch, stopAtLatch, hs] at hrun
      split at hrun
      next s' hstep => exact ⟨hs, s', hstep, hrun, ht⟩
      all_goals cases hrun
    · rw [runToLatch_succ_halted k hs] at hrun
      cases hrun
  · rintro ⟨hs, s', hstep, hrun, ht⟩
    exact ⟨(runToLatch_succ_running k hs hstep).trans hrun, ht⟩

/-! ### The latch along a run -/

/-- R177: no instruction-step clears the latch. -/
theorem running_of_instructionStep_running {p : Params} {s t : State}
    (hstep : instructionStep p s = .next t) (ht : t.running) : s.running := by
  rcases hs : s.fault with _ | r
  · exact hs
  · rw [instructionStep_halted p hs] at hstep
    cases hstep
    exact ht

theorem running_of_endsWell {p : Params} {k : Nat} {s t : State} (h : endsWell p k s t) :
    s.running := by
  cases k with
  | zero =>
    obtain ⟨hrun, ht⟩ := h
    cases hrun
    exact ht
  | succ k => exact (endsWell_succ_iff.1 h).1

/-- A run that ends well is a run of plain steps: every state on the way is running, so each step
reports ok. -/
theorem runOps_of_endsWell {p : Params} {k : Nat} {s t : State} (h : endsWell p k s t) :
    runOps p (List.replicate k .instructionStep) s = .next (t, List.replicate k .ok) := by
  induction k generalizing s with
  | zero =>
    obtain ⟨hrun, -⟩ := h
    cases hrun
    rfl
  | succ k ih =>
    obtain ⟨hs, s', hstep, hrest⟩ := endsWell_succ_iff.1 h
    refine runOps_replicate_succ_eq_next_iff.2 ⟨s', _, hstep, ih hrest, ?_⟩
    rw [stepReport_ok hs (running_of_endsWell hrest), List.replicate_succ]

/-- Plain steps that end running have passed no latched state, since no step clears the latch. -/
theorem endsWell_of_runOps_running {p : Params} {k : Nat} {s t : State} {rs : List Report}
    (h : runOps p (List.replicate k .instructionStep) s = .next (t, rs)) (ht : t.running) :
    endsWell p k s t := by
  induction k generalizing s rs with
  | zero =>
    cases h
    exact ⟨rfl, ht⟩
  | succ k ih =>
    obtain ⟨s', rs', hstep, hrun, -⟩ := runOps_replicate_succ_eq_next_iff.1 h
    have hrest : endsWell p k s' t := ih hrun
    have hs : s.running := running_of_instructionStep_running hstep (running_of_endsWell hrest)
    exact endsWell_succ_iff.2 ⟨hs, s', hstep, hrest⟩

/-- Plain steps that end halted: the run that ends at the latch stops at the first halted state,
whose record is the last one's, since a halted machine stays as it is (R101). -/
theorem runToLatch_succ_of_runOps_halted {p : Params} {k : Nat} {s t : State} {rs : List Report}
    {r : FaultRecord} (h : runOps p (List.replicate k .instructionStep) s = .next (t, rs))
    (ht : t.fault = some r) : runToLatch p (k + 1) s = .fault (.halted r) := by
  induction k generalizing s rs with
  | zero =>
    cases h
    exact runToLatch_succ_halted 0 ht
  | succ k ih =>
    obtain ⟨s', rs', hstep, hrun, -⟩ := runOps_replicate_succ_eq_next_iff.1 h
    have hrest : runToLatch p (k + 1) s' = .fault (.halted r) := ih hrun
    rcases hs : s.fault with _ | r'
    · rw [runToLatch_succ_running (k + 1) hs hstep, hrest]
    · rw [instructionStep_halted p hs] at hstep
      cases hstep
      rw [runToLatch_succ_halted (k + 1) hs, ← hrest, runToLatch_succ_halted k hs]

/-- Settles O49: the two runs are the same run as long as no fault is latched, and once one is, the
plain steps keep it to their end. -/
theorem endsWellIsKPlainStepsThatEndRunning :
    Obligations.EndsWellIsKPlainStepsThatEndRunning := by
  refine ⟨fun p k s t => ⟨fun h => ⟨⟨_, runOps_of_endsWell h⟩, h.2⟩, ?_⟩,
    fun p k s t => runOps_of_endsWell, fun p k s t rs r => runToLatch_succ_of_runOps_halted⟩
  rintro ⟨⟨rs, hrun⟩, ht⟩
  exact endsWell_of_runOps_running hrun ht

end Sys2Proof.Machine
end

section
/-! The round trip on words and on bytes (R80, R81, R86): an instruction is two bytes, and decoding
them gives it back and leaves what follows. -/

namespace Sys2Proof

/-- R80: the first two bytes are decoded as the word they join to, and the others are left. -/
theorem decode_eq_instr_iff {hi lo : Byte} {rest rest' : List Byte} {i : Instr} :
    decode (hi :: lo :: rest) = .instr i rest' ↔
      decodeWord (joinBytes hi lo) = some i ∧ rest = rest' := by
  rcases h : decodeWord (joinBytes hi lo) with _ | j <;> simp [decode, h]

theorem decode_encode_append (i : Instr) (rest : List Byte) :
    decode (encode i ++ rest) = .instr i rest := by
  refine decode_eq_instr_iff.2 ⟨?_, rfl⟩
  rw [joinBytes_hi_lo, decodeWord_encodeWord]

/-- Settles O4: the word decodes to its instruction, and the bytes are decoded as their word. -/
theorem decodeOfEncodeIsTheInstruction : Obligations.DecodeOfEncodeIsTheInstruction :=
  fun i rest => ⟨decodeWord_encodeWord i, rfl, decode_encode_append i rest⟩

/-- Settles O5: each line of the decoder gives back every nibble it has matched. -/
theorem encodeOfDecodeIsTheWord : Obligations.EncodeOfDecodeIsTheWord :=
  fun _ _ h => (eq_encodeWord_of_decodeWord h).symm

end Sys2Proof
end

section
/-! The rows of the opcode map (R85, R86): a word selects a row exactly when it decodes to an
instruction of that row, so it selects one row or none. -/

namespace Sys2Proof

/-- Each row's mask and match are those of the decoder's line for it. -/
theorem decodeWord_of_selects {r : OpcodeRow} (hr : r ∈ opcodeMap) {w : Word}
    (h : r.selects w = true) : ∃ i, decodeWord w = some i ∧ i.row = r := by
  have hmask : w &&& r.mask = r.pattern := beq_iff_eq.1 h
  have hall : w &&& 0xFFFF#16 = w := BitVec.and_allOnes
  simp only [opcodeMap, List.mem_cons, List.not_mem_nil, or_false] at hr
  rcases hr with rfl | rfl | rfl | rfl | rfl | rfl | rfl | rfl | rfl | rfl | rfl
  · exact ⟨_, (decodeWord_eq_nop_iff w).2 (hall.symm.trans hmask), rfl⟩
  · exact ⟨_, (decodeWord_eq_cls_iff w).2 (hall.symm.trans hmask), rfl⟩
  · exact ⟨_, (decodeWord_eq_ret_iff w).2 (hall.symm.trans hmask), rfl⟩
  · exact ⟨_, (decodeWord_eq_jmp_iff w _).2 ⟨hmask, rfl⟩, rfl⟩
  · exact ⟨_, (decodeWord_eq_call_iff w _).2 ⟨hmask, rfl⟩, rfl⟩
  · exact ⟨_, (decodeWord_eq_skipEqImm_iff w _ _).2 ⟨hmask, rfl, rfl⟩, rfl⟩
  · exact ⟨_, (decodeWord_eq_skipNeqImm_iff w _ _).2 ⟨hmask, rfl, rfl⟩, rfl⟩
  · exact ⟨_, (decodeWord_eq_skipEqReg_iff w _ _).2 ⟨hmask, rfl, rfl⟩, rfl⟩
  · exact ⟨_, (decodeWord_eq_setImm_iff w _ _).2 ⟨hmask, rfl, rfl⟩, rfl⟩
  · exact ⟨_, (decodeWord_eq_addImm_iff w _ _).2 ⟨hmask, rfl, rfl⟩, rfl⟩
  · exact ⟨_, (decodeWord_eq_copyReg_iff w _ _).2 ⟨hmask, rfl, rfl⟩, rfl⟩

theorem selects_iff_of_decodeWord {w : Word} {i : Instr} (hi : decodeWord w = some i)
    {r : OpcodeRow} (hr : r ∈ opcodeMap) : r.selects w = true ↔ r = i.row := by
  constructor
  · intro h
    obtain ⟨j, hj, rfl⟩ := decodeWord_of_selects hr h
    rw [Option.some.inj (hj.symm.trans hi)]
  · rintro rfl
    rw [eq_encodeWord_of_decodeWord hi]
    exact row_selects_encodeWord i

theorem opcodeMap_nodup : opcodeMap.Nodup := by decide

/-- Settles O6: the rows a decoded word selects are those equal to its instruction's row, which
stands in the map once; a word that selects a row decodes. -/
theorem everyWordSelectsOneRowOrIsUnimplemented :
    Obligations.EveryWordSelectsOneRowOrIsUnimplemented := by
  intro w
  rcases hw : decodeWord w with _ | i
  · refine List.filter_eq_nil_iff.2 fun r hr hsel => ?_
    obtain ⟨i, hi, -⟩ := decodeWord_of_selects hr hsel
    rw [hw] at hi
    cases hi
  · calc opcodeMap.filter (·.selects w)
        = opcodeMap.filter (· == i.row) := List.filter_congr fun r hr => by
          rw [Bool.eq_iff_iff, selects_iff_of_decodeWord hw hr, beq_iff_eq]
      _ = List.replicate (opcodeMap.count i.row) i.row := List.filter_beq i.row
      _ = [i.row] := by
          rw [List.count_eq_one_of_mem opcodeMap_nodup (row_mem_opcodeMap i)]
          rfl

end Sys2Proof
end

section
/-! The unimplemented words (R151), family by family. -/

namespace Sys2Proof

/-- A word of family 0 is unimplemented exactly when it is none of the family's three. -/
theorem decodeFamily0_eq_none_iff (b c d : Nibble) :
    decodeFamily0 b c d = none ↔ 0#4 ++ b ++ c ++ d ≠ 0x0000#16 ∧
      0#4 ++ b ++ c ++ d ≠ 0x00E0#16 ∧ 0#4 ++ b ++ c ++ d ≠ 0x00EE#16 := by
  constructor
  · intro h
    have hne : ∀ i, 0#4 ++ b ++ c ++ d ≠ encodeWord i := fun i e => by
      have hi := (decodeWord_eq_some_iff _ i).2 e
      rw [decodeWord_append, h] at hi
      cases hi
    exact ⟨hne .nop, hne .cls, hne .ret⟩
  · rintro ⟨hnop, hcls, hret⟩
    rcases decodeFamily0_cases b c d with ⟨rfl, rfl, rfl, -⟩ | ⟨rfl, rfl, rfl, -⟩ |
      ⟨rfl, rfl, rfl, -⟩ | ⟨-, -, -, he⟩
    · exact absurd rfl hnop
    · exact absurd rfl hcls
    · exact absurd rfl hret
    · exact he

/-- Settles O7: the families 0, 5, 8 and those from 9 on are the ones with unimplemented words. -/
theorem unimplementedWordsAreTheListedPatterns :
    Obligations.UnimplementedWordsAreTheListedPatterns := by
  intro w
  obtain ⟨a, b, c, d, rfl⟩ := word_eq_nibbles w
  rw [fieldN3_append, fieldN0_append]
  rcases family_cases a with rfl | rfl | rfl | rfl | rfl | rfl | rfl | rfl | rfl | h9
  · rw [decodeWord_append]
    simp [decodeFamily0_eq_none_iff]
  iterate 8
    · rw [decodeWord_append]
      simp
  · exact iff_of_true (decodeWord_append_of_le b c d h9) (.inr (.inr (.inr h9)))

end Sys2Proof
end

section
/-! What each instruction does to the state it is executed in, as one relation: the frames and the
invariant below are case analyses on it. -/

namespace Sys2Proof.Machine

/-- The instructions that set `PC` and nothing else: JMP (R120) and the skips (R130 to R132). -/
def IsJumpOrSkip (i : Instr) : Prop :=
  (∃ nnn, i = .jmp nnn) ∨ (∃ x nn, i = .skipEqImm x nn) ∨ (∃ x nn, i = .skipNeqImm x nn) ∨
    ∃ x y, i = .skipEqReg x y

/-- The instructions that write register `x` (R22, R140 to R142). -/
def WritesRegister (i : Instr) (x : Nibble) : Prop :=
  (∃ nn, i = .setImm x nn) ∨ (∃ nn, i = .addImm x nn) ∨ ∃ y, i = .copyReg x y

/-- The effect of instruction `i` from state `s` to state `t`, by what it writes. -/
inductive ExecEffect : Instr → State → State → Prop
  /-- R110. -/
  | nop (s : State) : ExecEffect .nop s s
  /-- R111. -/
  | cls (s : State) : ExecEffect .cls s (clearFb s)
  /-- The new `PC` is an address operand, or the old one, or the old one advanced. -/
  | move {i : Instr} (s : State) (hi : IsJumpOrSkip i) (a : Word)
      (ha : (∃ nnn, a = addressOperand nnn) ∨ a = s.pc ∨ a = s.pc + 2) :
      ExecEffect i s (setPc a s)
  /-- R140 to R142. -/
  | write {i : Instr} (s : State) {x : Nibble} (hi : WritesRegister i x) (b : Byte) :
      ExecEffect i s (writeReg x b s)
  /-- R121 below the capacity. -/
  | call (s : State) (nnn : Addr12) (h : s.sp.val < stackCap) :
      ExecEffect (.call nnn) s (setPc (addressOperand nnn)
        (setSp ⟨s.sp.val + 1, Nat.succ_lt_succ h⟩ (setStack (s.stack.set s.sp.val s.pc h) s)))
  /-- R112 with a slot below the depth. -/
  | ret (s : State) (k : Nat) (hk : k < stackCap) (h : s.sp.val = k + 1) :
      ExecEffect .ret s (setPc s.stack[k] (setSp ⟨k, Nat.lt_succ_of_lt hk⟩ s))
  /-- R173. -/
  | overflow (s : State) (nnn : Addr12) (h : s.sp.val = stackCap) :
      ExecEffect (.call nnn) s
        (raise (.stackOverflow (encodeWord (.call nnn)) (fetchPcOf s)) s)
  /-- R174. -/
  | underflow (s : State) (h : s.sp.val = 0) :
      ExecEffect .ret s (raise (.stackUnderflow (encodeWord .ret) (fetchPcOf s)) s)

/-- A skip leaves `PC` or advances it (R130 to R132). -/
theorem execEffect_skip {i : Instr} (hi : IsJumpOrSkip i) (c : Prop) [Decidable c] (s : State) :
    ExecEffect i s (setPc (if c then s.pc + 2 else s.pc) s) := by
  refine .move s hi _ ?_
  by_cases hc : c
  · exact .inr (.inr (if_pos hc))
  · exact .inr (.inl (if_neg hc))

/-- R105, R206: every instruction answers a next state, by its effect. -/
theorem exec_answers (i : Instr) (s : State) : ∃ t, exec i s = .next t ∧ ExecEffect i s t := by
  cases i with
  | nop => exact ⟨_, exec_nop s, .nop s⟩
  | cls => exact ⟨_, exec_cls s, .cls s⟩
  | ret =>
    rcases h : s.sp.val with _ | k
    · exact ⟨_, exec_ret_of_zero h, .underflow s h⟩
    · exact ⟨_, exec_ret_of_succ h, .ret s k (by have := s.sp.isLt; omega) h⟩
  | jmp nnn =>
    exact ⟨_, exec_jmp nnn s, .move s (.inl ⟨nnn, rfl⟩) _ (.inl ⟨nnn, rfl⟩)⟩
  | call nnn =>
    obtain h | h := Nat.lt_or_eq_of_le (Nat.le_of_lt_succ s.sp.isLt)
    · exact ⟨_, exec_call_of_lt nnn h, .call s nnn h⟩
    · exact ⟨_, exec_call_of_full nnn h, .overflow s nnn h⟩
  | skipEqImm x nn =>
    exact ⟨_, exec_skipEqImm x nn s, execEffect_skip (.inr (.inl ⟨x, nn, rfl⟩)) _ s⟩
  | skipNeqImm x nn =>
    exact ⟨_, exec_skipNeqImm x nn s, execEffect_skip (.inr (.inr (.inl ⟨x, nn, rfl⟩))) _ s⟩
  | skipEqReg x y =>
    exact ⟨_, exec_skipEqReg x y s, execEffect_skip (.inr (.inr (.inr ⟨x, y, rfl⟩))) _ s⟩
  | setImm x nn => exact ⟨_, exec_setImm x nn s, .write s (.inl ⟨nn, rfl⟩) _⟩
  | addImm x nn => exact ⟨_, exec_addImm x nn s, .write s (.inr (.inl ⟨nn, rfl⟩)) _⟩
  | copyReg x y => exact ⟨_, exec_copyReg x y s, .write s (.inr (.inr ⟨y, rfl⟩)) _⟩

theorem execEffect_of_exec {i : Instr} {s t : State} (h : exec i s = .next t) :
    ExecEffect i s t := by
  obtain ⟨u, hu, heffect⟩ := exec_answers i s
  cases hu.symm.trans h
  exact heffect

end Sys2Proof.Machine
end

section
/-! The frames of the instructions (R20, R22, R27, R51, R68, R153). -/

namespace Sys2Proof.Machine

theorem raise_eq_update (r : FaultRecord) (s : State) :
    raise r s = { s with fault := (raise r s).fault } := by
  obtain h | h := raise_cases r s
  · rw [h]
    rfl
  · rw [h]

@[simp] theorem raise_v (r : FaultRecord) (s : State) : (raise r s).v = s.v := by
  rw [raise_eq_update]
@[simp] theorem raise_pc (r : FaultRecord) (s : State) : (raise r s).pc = s.pc := by
  rw [raise_eq_update]
@[simp] theorem raise_stack (r : FaultRecord) (s : State) : (raise r s).stack = s.stack := by
  rw [raise_eq_update]
@[simp] theorem raise_sp (r : FaultRecord) (s : State) : (raise r s).sp = s.sp := by
  rw [raise_eq_update]
@[simp] theorem raise_fb (r : FaultRecord) (s : State) : (raise r s).fb = s.fb := by
  rw [raise_eq_update]

section
variable {i : Instr} {s t : State}

/-- No instruction writes memory, the timers, the keys or `I`. -/
theorem ExecEffect.frame (h : ExecEffect i s t) :
    t = { s with
      v := t.v, pc := t.pc, stack := t.stack, sp := t.sp, fb := t.fb, fault := t.fault } := by
  cases h with
  | nop | cls | move | write | call | ret => rfl
  | overflow | underflow => rw [raise_eq_update]

theorem ExecEffect.writesRegister_of_ne (h : ExecEffect i s t) {r : Nibble}
    (hne : readReg r t ≠ readReg r s) : WritesRegister i r := by
  cases h with
  | @write _ _ x hi b =>
    obtain rfl : r = x := by_contra fun hr => hne (readReg_writeReg_other b s hr)
    exact hi
  | nop | cls | move | call | ret => exact absurd rfl hne
  | overflow | underflow => simp [readReg] at hne

theorem ExecEffect.call_of_slot_ne (h : ExecEffect i s t) {k : Nat} (hk : k < stackCap)
    (hne : t.stack[k] ≠ s.stack[k]) : k = s.sp.val ∧ ∃ nnn, i = .call nnn := by
  cases h with
  | call _ nnn hsp =>
    exact ⟨by_contra fun hks => hne (Vector.getElem_set_ne hsp hk (Ne.symm hks)), nnn, rfl⟩
  | nop | cls | move | write | ret => exact absurd rfl hne
  | overflow | underflow => simp at hne

theorem ExecEffect.ret_or_call_of_sp_ne (h : ExecEffect i s t) (hne : t.sp ≠ s.sp) :
    i = .ret ∨ ∃ nnn, i = .call nnn := by
  cases h with
  | call _ nnn => exact .inr ⟨nnn, rfl⟩
  | ret => exact .inl rfl
  | nop | cls | move | write => exact absurd rfl hne
  | overflow | underflow => simp at hne

theorem ExecEffect.cls_of_fb_ne (h : ExecEffect i s t) (hne : t.fb ≠ s.fb) : i = .cls := by
  cases h with
  | cls => rfl
  | nop | move | write | call | ret => exact absurd rfl hne
  | overflow | underflow => simp at hne

theorem ExecEffect.stack_fault_of_fault_ne (h : ExecEffect i s t) (hne : t.fault ≠ s.fault) :
    (i = .ret ∧ s.sp.val = 0) ∨ ((∃ nnn, i = .call nnn) ∧ s.sp.val = stackCap) := by
  cases h with
  | overflow _ nnn hsp => exact .inr ⟨⟨nnn, rfl⟩, hsp⟩
  | underflow _ hsp => exact .inl ⟨rfl, hsp⟩
  | nop | cls | move | write | call | ret => exact absurd rfl hne

theorem ExecEffect.jump_of_pc_ne (h : ExecEffect i s t) (hne : t.pc ≠ s.pc) :
    i = .ret ∨ (∃ nnn, i = .jmp nnn) ∨ (∃ nnn, i = .call nnn) ∨
      (∃ x nn, i = .skipEqImm x nn) ∨ (∃ x nn, i = .skipNeqImm x nn) ∨
      ∃ x y, i = .skipEqReg x y := by
  cases h with
  | move _ hi =>
    obtain hjmp | hskip := hi
    · exact .inr (.inl hjmp)
    · exact .inr (.inr (.inr hskip))
  | call _ nnn => exact .inr (.inr (.inl ⟨nnn, rfl⟩))
  | ret => exact .inl rfl
  | nop | cls | write => exact absurd rfl hne
  | overflow | underflow => simp at hne

end

/-- Settles O34: memory is the same data, so it reads as before under any parameters. -/
theorem noInstructionTouchesMemoryTimersKeysIndex :
    Obligations.NoInstructionTouchesMemoryTimersKeysIndex := by
  intro i s t h
  rw [(execEffect_of_exec h).frame]
  exact ⟨fun _ _ => rfl, rfl, rfl, rfl, rfl⟩

/-- Settles O35: the one effect that writes a register is that of SET, ADD and COPY, on their
destination. -/
theorem onlySetAddCopyWriteTheirRegister : Obligations.OnlySetAddCopyWriteTheirRegister :=
  fun _ _ _ _ h => (execEffect_of_exec h).writesRegister_of_ne

/-- Settles O36: one frame per field. -/
theorem onlyTheNamedInstructionsWriteStackFbFault :
    Obligations.OnlyTheNamedInstructionsWriteStackFbFault := by
  intro i s t h
  have heffect := execEffect_of_exec h
  exact ⟨fun k hk => heffect.call_of_slot_ne hk, heffect.ret_or_call_of_sp_ne,
    heffect.cls_of_fb_ne, heffect.stack_fault_of_fault_ne, heffect.jump_of_pc_ne⟩

end Sys2Proof.Machine
end

section
/-! The invariant of the machine (R25, R30, R35, R153, R172 to R175) along an instruction-step: the
advance keeps it, each effect of an instruction keeps it, and the records the step latches are
truthful. -/

namespace Sys2Proof.Machine

variable {p : Params} {s t : State}

theorem faultTruthful_of_running (h : s.running) : faultTruthful p s := by
  simp [faultTruthful, h]

theorem toNat_add_two_le (a : Word) : (a + 2).toNat ≤ a.toNat + 2 := by
  rw [BitVec.toNat_add]
  exact Nat.mod_le _ _

theorem toNat_addressOperand_le (nnn : Addr12) : (addressOperand nnn).toNat ≤ 4095 := by
  rw [toNat_addressOperand]
  have := nnn.isLt
  omega

/-- The invariant of a running state does not speak of registers and timers. -/
theorem State.Inv.of_running (h : s.Inv p) (ht : t.running)
    (hmem : t.mem = s.mem) (hkeys : t.keys = s.keys) (hi : t.i = s.i) (hfb : t.fb = darkFb)
    (hpc : t.pc.toNat ≤ max 4095 (p.memSize + 2))
    (hstack : ∀ (k : Nat) (hk : k < stackCap), t.stack[k].toNat ≤ p.memSize) : t.Inv p where
  wf := by rw [State.wf, hmem, hkeys]; exact h.wf
  fault := faultTruthful_of_running ht
  index := hi.trans h.index
  dark := hfb
  pc := hpc
  stack := hstack

/-- Latching a truthful record keeps the invariant. -/
theorem State.Inv.of_latch (h : s.Inv p) (r : FaultRecord) (hr : faultTruthful p (latch r s)) :
    (latch r s).Inv p where
  wf := h.wf
  fault := hr
  index := h.index
  dark := h.dark
  pc := h.pc
  stack := h.stack

theorem State.Inv.of_advance (h : s.Inv p) (hs : s.running) (hpc : s.pc.toNat + 1 < p.memSize) :
    (advance s).Inv p := by
  refine h.of_running hs rfl rfl rfl h.dark ?_ h.stack
  have := toNat_add_two_le s.pc
  simp only [advance_pc]
  omega

/-- A step's fetch is inside memory, so an instruction executes with `PC` at most `MEM_SIZE`: it can
push it, and a skip goes at most 2 past the end (R30). -/
theorem State.Inv.of_execEffect {i : Instr} (h : s.Inv p) (hs : s.running)
    (hpc : s.pc.toNat ≤ p.memSize) (heffect : ExecEffect i s t) : t.Inv p := by
  cases heffect with
  | nop => exact h
  | cls => exact h.of_running hs rfl rfl rfl rfl h.pc h.stack
  | move _ _ a ha =>
    refine h.of_running hs rfl rfl rfl h.dark ?_ h.stack
    rw [setPc_pc]
    rcases ha with ⟨nnn, rfl⟩ | rfl | rfl
    · exact le_max_of_le_left (toNat_addressOperand_le nnn)
    · exact h.pc
    · have := toNat_add_two_le s.pc
      omega
  | write => exact h.of_running hs rfl rfl rfl h.dark h.pc h.stack
  | call _ nnn hsp =>
    refine h.of_running hs rfl rfl rfl h.dark
      (le_max_of_le_left (toNat_addressOperand_le nnn)) fun k hk => ?_
    simp only [setPc_stack, setSp_stack, setStack_stack, Vector.getElem_set]
    split
    · exact hpc
    · exact h.stack k hk
  | ret _ k hk _ =>
    refine h.of_running hs rfl rfl rfl h.dark ?_ h.stack
    have := h.stack k hk
    rw [setPc_pc]
    omega
  | overflow _ nnn hsp =>
    rw [raise_running _ hs]
    exact h.of_latch _ ⟨⟨nnn, decodeWord_encodeWord _⟩, hsp, (BitVec.sub_add_cancel s.pc 2).symm⟩
  | underflow _ hsp =>
    rw [raise_running _ hs]
    exact h.of_latch _ ⟨rfl, hsp, (BitVec.sub_add_cancel s.pc 2).symm⟩

/-- R175: the address a fetch refuses is the first or the second of its two, and is outside
memory. -/
theorem fetch_outOfRange {a : Nat} (h : fetch p s = .outOfRange a) :
    p.memSize ≤ a ∧ (a = s.pc.toNat ∨ (a = s.pc.toNat + 1 ∧ s.pc.toNat < p.memSize)) := by
  rcases fetch_cases p s with ⟨-, he⟩ | ⟨hpc, he⟩ | ⟨hpc, he⟩ <;> cases he.symm.trans h
  · exact ⟨hpc.ge, .inr ⟨rfl, by omega⟩⟩
  · exact ⟨hpc, .inl rfl⟩

/-- R102: a fetch that gives a word is inside memory. -/
theorem pc_lt_of_fetch_ok {w : Word} (h : fetch p s = .ok w) : s.pc.toNat + 1 < p.memSize := by
  rcases fetch_cases p s with ⟨hpc, -⟩ | ⟨-, he⟩ | ⟨-, he⟩
  · exact hpc
  all_goals cases he.symm.trans h

/-- The instruction-step keeps the invariant, for any parameters. -/
theorem State.Inv.of_instructionStep (h : s.Inv p) (hstep : instructionStep p s = .next t) :
    t.Inv p := by
  rcases instructionStep_cases p s with ⟨r, -, he⟩ | ⟨-, a, hfetch, he⟩ |
    ⟨hs, w, hfetch, hw, he⟩ | ⟨hs, w, i, hfetch, -, he⟩ <;> rw [he] at hstep
  · cases hstep
    exact h
  · cases hstep
    obtain ⟨hout, ha⟩ := fetch_outOfRange hfetch
    have := s.pc.isLt
    exact h.of_latch _ ⟨hout, by omega, rfl, ha⟩
  · cases hstep
    exact (h.of_advance hs (pc_lt_of_fetch_ok hfetch)).of_latch _ ⟨hw, rfl⟩
  · have hpc := pc_lt_of_fetch_ok hfetch
    have hnext : (advance s).pc.toNat ≤ p.memSize := by
      have := toNat_add_two_le s.pc
      rw [advance_pc]
      omega
    exact (h.of_advance hs hpc).of_execEffect hs hnext (execEffect_of_exec hstep)

/-- Settles O50: the step is the instruction-step of the standard parameters. -/
theorem stepKeepsTheMachineInvariant : Obligations.StepKeepsTheMachineInvariant :=
  fun _ _ h hstep => h.of_instructionStep hstep

end Sys2Proof.Machine
end

section
/-! Totality (R108, R206): every operation answers a next state, and so does every run. -/

namespace Sys2Proof.Machine

theorem instructionStep_answers (p : Params) (s : State) : ∃ t, instructionStep p s = .next t := by
  rcases instructionStep_cases p s with ⟨r, -, he⟩ | ⟨-, a, -, he⟩ | ⟨-, w, -, -, he⟩ |
    ⟨-, w, i, -, -, he⟩
  · exact ⟨_, he⟩
  · exact ⟨_, he⟩
  · exact ⟨_, he⟩
  · obtain ⟨t, ht, -⟩ := exec_answers i (advance s)
    exact ⟨t, he.trans ht⟩

theorem perform_answers (p : Params) (op : Op) (s : State) :
    ∃ t r, perform p op s = .next (t, r) := by
  cases op with
  | instructionStep =>
    obtain ⟨t, ht⟩ := instructionStep_answers p s
    exact ⟨t, _, perform_instructionStep ht⟩
  | construct | reset | timerStep | load | setKey | setTimer | readFramebuffer | observe =>
    exact ⟨_, _, rfl⟩

/-- A property that every operation keeps holds at the end of every run, which answers (R199). -/
theorem runOps_induction {p : Params} {P : State → Prop}
    (hkeep : ∀ op s t r, P s → perform p op s = .next (t, r) → P t) (ops : List Op) {s : State}
    (hs : P s) : ∃ t rs, runOps p ops s = .next (t, rs) ∧ rs.length = ops.length ∧ P t := by
  induction ops generalizing s with
  | nil => exact ⟨s, [], rfl, rfl, hs⟩
  | cons op ops ih =>
    obtain ⟨s', r, hop⟩ := perform_answers p op s
    obtain ⟨t, rs, hrun, hlen, ht⟩ := ih (hkeep op s s' r hs hop)
    exact ⟨t, r :: rs, runOps_cons_eq_next_iff.2 ⟨s', r, rs, hop, hrun, rfl⟩,
      congrArg Nat.succ hlen, ht⟩

/-- Settles O17: an instruction answers by its effect, a run by induction over its operations. -/
theorem everyOperationAnswersANextState : Obligations.EveryOperationAnswersANextState := by
  refine ⟨fun i s => ?_, instructionStep_answers, perform_answers, fun p ops s => ?_⟩
  · obtain ⟨t, ht, -⟩ := exec_answers i s
    exact ⟨t, ht⟩
  · obtain ⟨t, rs, hrun, hlen, -⟩ :=
      runOps_induction (p := p) (P := fun _ => True) (fun _ _ _ _ _ _ => trivial) ops
        (s := s) trivial
    exact ⟨t, rs, hrun, hlen⟩

end Sys2Proof.Machine
end

section
/-! The reset state (R41) and the invariant over the host's operations (R199). -/

namespace Sys2Proof.Machine

/-! ### The reset state -/

theorem readReg_resetWith (p : Params) (x : Nibble) : readReg x (State.resetWith p) = 0 := by
  simp [readReg]

theorem peek_resetWith_font (p : Params) {a : Nat} (h : a < fontLen) :
    Memory.peek p (State.resetWith p).mem a = p.font[a] := by
  simp [Memory.peek, Memory.lookup, resetByte, h]

theorem peek_resetWith_zero (p : Params) {a : Nat} (h : fontLen ≤ a) :
    Memory.peek p (State.resetWith p).mem a = 0 := by
  simp [Memory.peek, Memory.lookup, resetByte, Nat.not_lt.2 h]

theorem stack_resetWith (p : Params) {k : Nat} (h : k < stackCap) :
    (State.resetWith p).stack[k] = 0 := by
  simp

theorem fbCell_resetWith (p : Params) (j : Fin fbCells) :
    fbCell (State.resetWith p) j = false := by
  simp [fbCell, darkFb]

/-- Settles O1: one lemma per row of R41 that is no field's literal value. -/
theorem resetGivesEveryFieldItsValue : Obligations.ResetGivesEveryFieldItsValue := by
  intro p
  refine ⟨rfl, readReg_resetWith p, rfl, fun _ => peek_resetWith_font p,
    fun _ => peek_resetWith_zero p, fun _ => stack_resetWith p, rfl, rfl, rfl, fbCell_resetWith p,
    List.length_replicate, fun k b hb => ?_, rfl⟩
  exact List.eq_of_mem_replicate (List.mem_of_getElem? hb)

/-! ### The invariant -/

section
variable {p : Params} {s : State}

theorem State.wf_iff : s.wf p = true ↔ Memory.wf p s.mem = true ∧ s.keys.length = p.keyCount := by
  simp [State.wf]

theorem State.Inv.of_resetWith (hp : p.Legal) : (State.resetWith p).Inv p where
  wf := State.wf_iff.2 ⟨Memory.wf_reset p, List.length_replicate⟩
  fault := faultTruthful_of_running rfl
  index := rfl
  dark := rfl
  pc := by
    obtain ⟨-, hstart, -, -⟩ := hp
    rw [resetWith_pc]
    omega
  stack k hk := by
    rw [stack_resetWith p hk]
    exact Nat.zero_le _

/-- The host's writes reach memory, the keys and the timers alone, and the invariant asks of these
only that they are well formed. -/
theorem State.Inv.of_host_write (h : s.Inv p) {m : Memory} {ks : List Bool} (d e : Byte)
    (hm : Memory.wf p m = true) (hks : ks.length = p.keyCount) :
    State.Inv p { s with mem := m, keys := ks, dt := d, st := e } where
  wf := State.wf_iff.2 ⟨hm, hks⟩
  fault := h.fault
  index := h.index
  dark := h.dark
  pc := h.pc
  stack := h.stack

theorem State.Inv.of_perform {op : Op} {t : State} {r : Report} (hp : p.Legal) (h : s.Inv p)
    (hop : perform p op s = .next (t, r)) : t.Inv p := by
  obtain ⟨hmem, hkeys⟩ := State.wf_iff.1 h.wf
  rcases perform_cases hop with rfl | ⟨-, hstep⟩ | rfl | ⟨d, e, rfl⟩ | ⟨k, b, -, rfl⟩ |
    ⟨bytes, hfit, rfl⟩
  · exact .of_resetWith hp
  · exact h.of_instructionStep hstep
  · exact h
  · exact h.of_host_write d e hmem hkeys
  · exact h.of_host_write s.dt s.st hmem (List.length_set.trans hkeys)
  · exact h.of_host_write s.dt s.st (Memory.wf_pokeBytes bytes hmem hfit) hkeys

end

/-- Settles O3: with legal parameters the start address is inside memory. -/
theorem resetMeetsTheMachineInvariant : Obligations.ResetMeetsTheMachineInvariant :=
  fun _ => State.Inv.of_resetWith

/-- Settles O51: an operation is a reset, an instruction-step, no change, or a host write that keeps
memory and keys well formed. -/
theorem everyOperationKeepsTheMachineInvariant :
    Obligations.EveryOperationKeepsTheMachineInvariant :=
  fun _ _ _ _ _ hp h hop => h.of_perform hp hop

/-- Settles O52: by induction over the run, each operation keeping the invariant. -/
theorem everyRunKeepsTheMachineInvariant : Obligations.EveryRunKeepsTheMachineInvariant := by
  intro p ops s hp h
  obtain ⟨t, rs, hrun, -, ht⟩ :=
    runOps_induction (P := State.Inv p) (fun _ _ _ _ hs hop => hs.of_perform hp hop) ops h
  exact ⟨t, rs, hrun, ht⟩

end Sys2Proof.Machine
end

section
/-! The faults of an instruction-step (R102, R106, R170, R175, R178, R180): what causes one, and
that it leaves nothing changed but `PC` and the latch. -/

namespace Sys2Proof.Machine

variable {p : Params} {s t : State}

/-! ### A refused fetch -/

theorem instructionStep_of_outOfRange {a : Nat} (hs : s.running)
    (h : fetch p s = .outOfRange a) :
    instructionStep p s = .next (latch (.outOfRangeAddress a s.pc) s) := by
  simp [instructionStep, hs, h, raise_running]

/-- Settles O13: either fetch is refused with its own address, and the latch is all that changes. -/
theorem fetchOutsideMemoryHaltsWithPcUnchanged :
    Obligations.FetchOutsideMemoryHaltsWithPcUnchanged :=
  fun _ _ hs => ⟨fun h => instructionStep_of_outOfRange hs (fetch_first h),
    fun h => instructionStep_of_outOfRange hs (fetch_second h)⟩

/-! ### An instruction -/

/-- An instruction executed on a running machine that leaves a record latched has done nothing else
(R173, R174). -/
theorem ExecEffect.eq_latch {i : Instr} {r : FaultRecord} (h : ExecEffect i s t) (hs : s.running)
    (hr : t.fault = some r) : t = latch r s ∧ r.fetchedAt = fetchPcOf s := by
  cases h with
  | nop | cls | move | write | call | ret => cases hs.symm.trans hr
  | overflow | underflow =>
    rw [raise_running _ hs] at hr ⊢
    cases hr
    exact ⟨rfl, rfl⟩

/-- CALL at the capacity and RET at depth 0 are the instructions that fault (R180). -/
theorem exec_fault_ne_none_iff {i : Instr} (h : exec i s = .next t) (hs : s.running) :
    t.fault ≠ none ↔
      ((∃ nnn, i = .call nnn) ∧ s.sp.val = stackCap) ∨ (i = .ret ∧ s.sp.val = 0) := by
  constructor
  · intro hne
    exact ((execEffect_of_exec h).stack_fault_of_fault_ne (hs ▸ hne)).symm
  · rintro (⟨⟨nnn, rfl⟩, hsp⟩ | ⟨rfl, hsp⟩)
    · rw [exec_call_of_full nnn hsp, raise_running _ hs] at h
      cases h
      exact Option.some_ne_none _
    · rw [exec_ret_of_zero hsp, raise_running _ hs] at h
      cases h
      exact Option.some_ne_none _

/-! ### The step -/

/-- Settles O18: a refused fetch latches before the advance, an unimplemented word and a stack fault
after it; nothing else is written in any of the three. -/
theorem faultingStepChangesOnlyPcAndFault : Obligations.FaultingStepChangesOnlyPcAndFault := by
  intro p s t r hs hstep hr
  rcases instructionStep_cases p s with ⟨r', hr', -⟩ | ⟨-, a, -, he⟩ | ⟨-, w, -, -, he⟩ |
    ⟨-, w, i, -, -, he⟩
  · cases hs.symm.trans hr'
  · cases he.symm.trans hstep
    cases hr
    exact ⟨rfl, .inl rfl, rfl⟩
  · cases he.symm.trans hstep
    cases hr
    exact ⟨rfl, .inr rfl, rfl⟩
  · obtain ⟨rfl, hat⟩ := (execEffect_of_exec (he.symm.trans hstep)).eq_latch hs hr
    exact ⟨rfl, .inr rfl, hat.trans (fetchPcOf_advance s)⟩

/-- Settles O19: the fetch is refused, or gives a word that does not decode, or gives an
instruction, which faults on the stack or not at all. -/
theorem stepFaultsExactlyOnItsCauses : Obligations.StepFaultsExactlyOnItsCauses := by
  intro p s t hs hstep
  rcases instructionStep_cases p s with ⟨r, hr, -⟩ | ⟨-, a, hfetch, he⟩ |
    ⟨-, w, hfetch, hw, he⟩ | ⟨-, w, i, hfetch, hw, he⟩
  · cases hs.symm.trans hr
  · cases he.symm.trans hstep
    refine iff_of_true (Option.some_ne_none _) (.inl ?_)
    obtain ⟨hout, ha⟩ := fetch_outOfRange hfetch
    omega
  · cases he.symm.trans hstep
    exact iff_of_true (Option.some_ne_none _) (.inr ⟨w, hfetch, .inl hw⟩)
  · have hpc : ¬ p.memSize ≤ s.pc.toNat + 1 := Nat.not_le.2 (pc_lt_of_fetch_ok hfetch)
    rw [exec_fault_ne_none_iff (he.symm.trans hstep) hs]
    simp [hpc, hfetch, hw]

end Sys2Proof.Machine
end

section
/-! The step as one instruction (R100 to R105, R109, R120), on a halted machine (R101, R177), and
the words the spec lists. -/

namespace Sys2Proof.Machine

/-- The bytes at `PC` decode to an instruction: the fetch gives their join, which decodes to it. -/
theorem instructionStep_of_decode {p : Params} {s : State} {i : Instr} (hs : s.running)
    (hpc : s.pc.toNat + 1 < p.memSize)
    (hdecode : decode [Memory.peek p s.mem s.pc.toNat, Memory.peek p s.mem (s.pc.toNat + 1)] =
      .instr i []) : instructionStep p s = exec i (advance s) := by
  obtain ⟨hword, -⟩ := decode_eq_instr_iff.1 hdecode
  exact instructionStep_of_decodeWord hs (fetch_ok hpc) hword

/-- Settles O14: the step of the standard machine is the instruction-step of its parameters. -/
theorem stepRunsTheDecodedInstruction : Obligations.StepRunsTheDecodedInstruction :=
  ⟨fun _ _ => instructionStep_of_decode, fun _ _ _ => instructionStep_of_decode⟩

/-- Settles O16: both steps look at the latch first. -/
theorem haltedMachineIgnoresBothSteps : Obligations.HaltedMachineIgnoresBothSteps := by
  intro p s r hr
  have hstep := instructionStep_halted p hr
  refine ⟨hstep, ?_, ?_⟩
  · rw [perform_instructionStep hstep, stepReport_halted hr]
  · rw [perform_timerStep, timerStep_halted hr, timerReport_halted hr]

/-- Settles O21: the jump puts back the `PC` the advance has moved, and writes nothing else. -/
theorem jumpToSelfIsAFixedPoint : Obligations.JumpToSelfIsAFixedPoint := by
  intro p s nnn hs hw hpc
  have hself : setPc (addressOperand nnn) (advance s) = s := by
    rw [addressOperand, ← hpc]
    rfl
  rw [instructionStep_of_decodeWord hs hw (decodeWord_encodeWord (.jmp nnn)), exec_jmp, hself]

/-- Settles O8: the listed words are the encodings of their instructions, and the decoder refuses
the neighbours. -/
theorem listedWordsDecodeAsListed : Obligations.ListedWordsDecodeAsListed :=
  ⟨decodeWord_encodeWord .nop, decodeWord_encodeWord .cls, decodeWord_encodeWord .ret,
    decodeWord_encodeWord (.jmp 0x0E0#12), decodeWord_encodeWord (.call 0xABC#12),
    decodeWord_encodeWord (.skipEqImm 0xA#4 0x05#8),
    decodeWord_encodeWord (.skipNeqImm 0xF#4 0xFF#8),
    decodeWord_encodeWord (.skipEqReg 0xA#4 0xB#4), decodeWord_encodeWord (.setImm 0xA#4 0x05#8),
    decodeWord_encodeWord (.addImm 0xA#4 0x03#8), decodeWord_encodeWord (.copyReg 0xB#4 0xA#4),
    rfl, rfl, rfl, rfl, rfl, rfl, rfl⟩

end Sys2Proof.Machine
end

section
/-! The placing of a word where the machine fetches (log entry 9). -/

namespace Sys2Proof.Machine

/-- Where `placeWord` puts the word, both its bytes are in memory. -/
theorem placeWord_pc_lt {p : Params} (hp : p.startAddr.toNat + 1 < p.memSize) (w : Word)
    (s : State) : (placeWord p w s).pc.toNat + 1 < p.memSize := by
  simp only [placeWord]
  split
  next h => exact h
  next => exact hp

theorem placeWord_mem (p : Params) (w : Word) (s : State) :
    (placeWord p w s).mem =
      Memory.poke p (Memory.poke p s.mem (placeWord p w s).pc.toNat (hiByte w))
        ((placeWord p w s).pc.toNat + 1) (loByte w) := rfl

/-- The fetch after the placing reads the two bytes written, the second write leaving the first. -/
theorem fetch_placeWord {p : Params} {s : State} (hp : p.startAddr.toNat + 1 < p.memSize) (w : Word)
    (hm : Memory.wf p s.mem = true) : fetch p (placeWord p w s) = .ok w := by
  have hpc := placeWord_pc_lt hp w s
  have hwf : ∀ v, Memory.wf p (Memory.poke p s.mem (placeWord p w s).pc.toNat v) = true :=
    fun v => Memory.wf_poke v hm (by omega)
  rw [fetch_ok hpc, placeWord_mem, Memory.peek_poke_same _ _ (hwf _),
    Memory.peek_poke_other _ _ (by omega), Memory.peek_poke_same _ _ hm, joinBytes_hi_lo]

theorem withFetchWord_eq_placeWord (s : State) (w : Word) :
    s.withFetchWord 16 w.toNat = placeWord standard w s := by
  rw [State.withFetchWord, Nat.mod_eq_of_lt w.isLt, BitVec.ofNat_toNat, BitVec.setWidth_eq]

/-- Settles O22: the placed word is fetched by a running machine, so the step executes or refuses
it. -/
theorem placedWordIsTheNextInstruction : Obligations.PlacedWordIsTheNextInstruction := by
  intro s w hm
  rw [withFetchWord_eq_placeWord]
  have hs : (placeWord standard w s).running := rfl
  have hfetch := fetch_placeWord (p := standard) (by decide) w hm
  exact ⟨hs, hfetch, fun i hi => instructionStep_of_decodeWord hs hfetch hi,
    fun hw => instructionStep_of_decodeWord_eq_none hs hfetch hw⟩

end Sys2Proof.Machine
end

section
/-! What an instruction-step neither reads nor writes: the timers, the keys and `I` (R25, R43,
R108); with that, the two kinds of step commute (R166). -/

namespace Sys2Proof.Machine

/-- `s` with other timers, keys and index register. -/
def withUnread (d e : Byte) (ks : List Bool) (ix : Word) (s : State) : State :=
  { s with dt := d, st := e, keys := ks, i := ix }

section
variable {p : Params} {s t : State} (d e : Byte) (ks : List Bool) (ix : Word)

theorem raise_withUnread (r : FaultRecord) (s : State) :
    raise r (withUnread d e ks ix s) = withUnread d e ks ix (raise r s) := by
  rcases h : s.fault with _ | r'
  · rw [raise_running r h, raise_running r (s := withUnread d e ks ix s) h]
    rfl
  · simp [raise, withUnread, h]

theorem exec_withUnread {i : Instr} (h : exec i s = .next t) :
    exec i (withUnread d e ks ix s) = .next (withUnread d e ks ix t) := by
  cases i with
  | nop | cls | jmp | setImm | addImm | copyReg =>
    cases h
    rfl
  | skipEqImm | skipNeqImm | skipEqReg =>
    simp only [exec_skipEqImm, exec_skipNeqImm, exec_skipEqReg] at h ⊢
    cases h
    rfl
  | ret =>
    rcases hsp : s.sp.val with _ | k
    · rw [exec_ret_of_zero hsp] at h
      cases h
      rw [exec_ret_of_zero (s := withUnread d e ks ix s) hsp, ← raise_withUnread]
      rfl
    · rw [exec_ret_of_succ hsp] at h
      cases h
      rw [exec_ret_of_succ (s := withUnread d e ks ix s) hsp]
      rfl
  | call nnn =>
    obtain hsp | hsp := Nat.lt_or_eq_of_le (Nat.le_of_lt_succ s.sp.isLt)
    · rw [exec_call_of_lt nnn hsp] at h
      cases h
      rw [exec_call_of_lt nnn (s := withUnread d e ks ix s) hsp]
      rfl
    · rw [exec_call_of_full nnn hsp] at h
      cases h
      rw [exec_call_of_full nnn (s := withUnread d e ks ix s) hsp, ← raise_withUnread]
      rfl

theorem instructionStep_withUnread (h : instructionStep p s = .next t) :
    instructionStep p (withUnread d e ks ix s) = .next (withUnread d e ks ix t) := by
  rcases instructionStep_cases p s with ⟨r, hr, he⟩ | ⟨hs, a, hfetch, he⟩ |
    ⟨hs, w, hfetch, hw, he⟩ | ⟨hs, w, i, hfetch, hw, he⟩
  · cases he.symm.trans h
    exact instructionStep_halted p hr
  · cases he.symm.trans h
    exact instructionStep_of_outOfRange (s := withUnread d e ks ix s) hs hfetch
  · cases he.symm.trans h
    exact instructionStep_of_decodeWord_eq_none (s := withUnread d e ks ix s) hs hfetch hw
  · rw [instructionStep_of_decodeWord (s := withUnread d e ks ix s) hs hfetch hw]
    exact exec_withUnread d e ks ix (he.symm.trans h)

end

/-- Settles O20: the halted check, the fetch, the decoder and each execute arm look at other fields
alone. -/
theorem stepReadsNeitherTimersNorKeysNorIndex :
    Obligations.StepReadsNeitherTimersNorKeysNorIndex :=
  fun _ _ _ d e ks ix h => instructionStep_withUnread d e ks ix h

/-- R153 as a step: a step that ends running leaves the timers, the keys and `I`. -/
theorem instructionStep_unread_of_running {p : Params} {s t : State}
    (hstep : instructionStep p s = .next t) (ht : t.running) :
    t.dt = s.dt ∧ t.st = s.st ∧ t.keys = s.keys ∧ t.i = s.i := by
  obtain ⟨w, i, -, -, hexec⟩ := instructionStep_executes_of_running hstep ht
  rw [(execEffect_of_exec hexec).frame]
  exact ⟨rfl, rfl, rfl, rfl⟩

theorem timerCue_running {s : State} (hs : s.running) : timerCue s = cueOf s := by
  simp [timerCue, hs]

/-- Settles O44: the timer-step replaces two fields the instruction-step does not look at, by values
read off the same fields, which the instruction-step has left. -/
theorem timerStepCommutesWithAGoodStep : Obligations.TimerStepCommutesWithAGoodStep := by
  intro p s t hs hstep ht
  obtain ⟨hdt, hst, hkeys, hi⟩ := instructionStep_unread_of_running hstep ht
  constructor
  · calc instructionStep p (timerStep s)
        = instructionStep p (withUnread (decrement s.dt) (decrement s.st) s.keys s.i s) := by
          rw [timerStep_running hs]
          rfl
      _ = .next (withUnread (decrement s.dt) (decrement s.st) s.keys s.i t) :=
          instructionStep_withUnread _ _ _ _ hstep
      _ = .next (timerStep t) := by
          rw [timerStep_running ht, hdt, hst, ← hkeys, ← hi]
          rfl
  · rw [timerCue_running ht, timerCue_running hs, cueOf, cueOf, hst]

end Sys2Proof.Machine
end

section
/-! Several timer-steps on a running machine (R161, R162). -/

namespace Sys2Proof.Machine

/-- `k` timer-steps are `k` decrements of each counter. -/
theorem iterate_timerStep {s : State} (hs : s.running) (k : Nat) :
    timerStep^[k] s = setTimers (decrement^[k] s.dt) (decrement^[k] s.st) s := by
  induction k with
  | zero => rfl
  | succ k ih =>
    have hk : (setTimers (decrement^[k] s.dt) (decrement^[k] s.st) s).running := hs
    rw [Function.iterate_succ_apply', ih, timerStep_running hk,
      Function.iterate_succ_apply', Function.iterate_succ_apply']
    rfl

theorem toNat_iterate_decrement (c : Byte) (k : Nat) :
    (decrement^[k] c).toNat = c.toNat - k := by
  induction k with
  | zero => rfl
  | succ k ih => rw [Function.iterate_succ_apply', decrement_toNat, ih, Nat.sub_sub]

/-- Settles O42: both counters go down by one a step and floor at zero. -/
theorem counterFloorsAtZeroAfterKTicks : Obligations.CounterFloorsAtZeroAfterKTicks := by
  intro k s hs
  rw [iterate_timerStep hs k]
  exact ⟨toNat_iterate_decrement s.dt k, toNat_iterate_decrement s.st k, rfl⟩

/-- Settles O43: the cue is delivered at 1, which the counter passes once, after all but one of its
steps. -/
theorem oneCuePerCountdown : Obligations.OneCuePerCountdown := by
  intro k s hs
  have hiter := iterate_timerStep hs k
  have hk : (timerStep^[k] s).running := by rw [hiter]; exact hs
  rw [timerCue_running hk, cueOf_eq_true_iff, hiter, setTimers_st, toNat_iterate_decrement]
  omega

end Sys2Proof.Machine
end

section
/-! The call stack as last in, first out (R31, R32, properties S-3 and S-4 of the source). -/

namespace Sys2Proof.Machine

/-- Settles O37: a push that is not refused is `setStack` and `setSp`. -/
theorem pushWritesTheSlotAtTheDepth : Obligations.PushWritesTheSlotAtTheDepth :=
  fun a _ => ⟨fun h => ⟨_, push_of_lt a h, Vector.getElem_set_self h,
    fun _ hk hne => Vector.getElem_set_ne h hk hne.symm, rfl, rfl⟩, push_of_full a⟩

/-- Settles O38: a pop that is not refused is `setSp`, so the slot keeps its value. -/
theorem popReadsTheSlotBelowTheDepth : Obligations.PopReadsTheSlotBelowTheDepth :=
  fun _ => ⟨fun _ _ hsp => ⟨_, pop_of_succ hsp, rfl, rfl⟩, pop_of_zero⟩

/-- A pop gives what the slot below the depth holds, and takes the depth back to its index. -/
theorem pop_eq_of_slot {s t : State} {a : Word} (h : s.sp.val < stackCap)
    (hsp : t.sp.val = s.sp.val + 1) (ha : t.stack[s.sp.val] = a) :
    pop t = some (a, setSp s.sp t) := by
  rw [pop_of_succ hsp, ← ha]

theorem exec_ret_of_pop {s t : State} {a : Word} (h : pop s = some (a, t)) :
    exec .ret s = .next (setPc a t) := by
  simp [exec, execRet, h]

/-- Settles O39: the slot RET pops is the one the CALL has written. -/
theorem callThenRetReturnsPastTheCall : Obligations.CallThenRetReturnsPastTheCall := by
  intro nnn s t h hcall
  rw [exec_call_of_lt nnn h] at hcall
  cases hcall
  rw [exec_ret_of_pop (pop_eq_of_slot h (a := s.pc) rfl (Vector.getElem_set_self h))]
  rfl

/-- The first of several pops, and the rest. -/
theorem popAll_succ_eq_some_iff {n : Nat} {s u : State} {as : List Word} :
    popAll (n + 1) s = some (as, u) ↔
      ∃ a t rest, pop s = some (a, t) ∧ popAll n t = some (rest, u) ∧ as = a :: rest := by
  constructor
  · intro h
    rw [popAll] at h
    split at h
    next a t hpop =>
      split at h <;> cases h
      next rest hrest => exact ⟨a, t, rest, hpop, hrest, rfl⟩
    next => cases h
  · rintro ⟨a, t, rest, hpop, hrest, rfl⟩
    simp [popAll, hpop, hrest]

/-- The last of several pops comes off last. -/
theorem popAll_succ_append {n : Nat} {s t u : State} {as : List Word} {a : Word}
    (hall : popAll n s = some (as, t)) (hpop : pop t = some (a, u)) :
    popAll (n + 1) s = some (as ++ [a], u) := by
  induction n generalizing s as with
  | zero =>
    cases hall
    exact popAll_succ_eq_some_iff.2 ⟨a, u, [], hpop, rfl, rfl⟩
  | succ n ih =>
    obtain ⟨b, s', rest, hfirst, hrest, rfl⟩ := popAll_succ_eq_some_iff.1 hall
    exact popAll_succ_eq_some_iff.2 ⟨b, s', rest ++ [a], hfirst, ih hrest, rfl⟩

/-- S-4 with the frame its induction needs: the pushes leave every slot below the old depth. -/
theorem pushAll_popAll (as : List Word) {s : State} (h : s.sp.val + as.length ≤ stackCap) :
    ∃ t, pushAll as s = some t ∧ t.sp.val = s.sp.val + as.length ∧
      (∀ (k : Nat) (hk : k < stackCap), k < s.sp.val → t.stack[k] = s.stack[k]) ∧
      popAll as.length t = some (as.reverse, { s with stack := t.stack }) := by
  induction as generalizing s with
  | nil => exact ⟨s, rfl, rfl, fun _ _ _ => rfl, rfl⟩
  | cons a as ih =>
    rw [List.length_cons] at h ⊢
    have hsp : s.sp.val < stackCap := by omega
    obtain ⟨s', hpush, hwritten, hother, hdepth, hframe⟩ :=
      (pushWritesTheSlotAtTheDepth a s).1 hsp
    obtain ⟨t, ht, htsp, hbelow, hpop⟩ := ih (s := s') (by omega)
    have hslot : t.stack[s.sp.val] = a := (hbelow _ hsp (by omega)).trans hwritten
    refine ⟨t, by rw [pushAll, hpush]; exact ht, by omega, fun k hk hlt => ?_, ?_⟩
    · exact (hbelow k hk (by omega)).trans (hother k hk (by omega))
    · rw [popAll_succ_append hpop (pop_eq_of_slot hsp hdepth hslot), List.reverse_cons, hframe]
      rfl

/-- Settles O40: the addresses come off in reverse, each from the slot its push wrote. -/
theorem nestedPushesUnwindInReverse : Obligations.NestedPushesUnwindInReverse := by
  intro as s h
  obtain ⟨t, hpush, hsp, -, hpop⟩ := pushAll_popAll as h
  exact ⟨t, hpush, hsp, hpop⟩

end Sys2Proof.Machine
end

section
/-! Memory as data (R52, R53, log entry 10): the bounds-checked accesses, and that a canonical
memory is determined by what it reads as. -/

namespace Sys2Proof.Machine

section
variable {p : Params} {m : Memory} {a : Nat}

theorem Memory.read_of_lt (h : a < p.memSize) : Memory.read p m a = .ok (Memory.peek p m a) :=
  if_pos h

theorem Memory.read_of_le (h : p.memSize ≤ a) : Memory.read p m a = .outOfRange a :=
  if_neg (Nat.not_lt.2 h)

theorem Memory.write_of_lt (v : Byte) (h : a < p.memSize) :
    Memory.write p m a v = .ok (Memory.poke p m a v) :=
  if_pos h

theorem Memory.write_of_le (v : Byte) (h : p.memSize ≤ a) :
    Memory.write p m a v = .outOfRange a :=
  if_neg (Nat.not_lt.2 h)

theorem Memory.peek_of_above (h : Memory.above a m) : Memory.peek p m a = resetByte p a := by
  rw [Memory.peek, Memory.lookup_above h, Option.getD_none]

theorem Memory.peek_cons_same (v : Byte) : Memory.peek p ((a, v) :: m) a = v := by
  simp [Memory.peek, Memory.lookup]

theorem Memory.peek_cons_other {b : Nat} (v : Byte) (h : b ≠ a) :
    Memory.peek p ((a, v) :: m) b = Memory.peek p m b := by
  simp [Memory.peek, Memory.lookup, h]

/-- The first cell of a canonical memory does not read as its reset contents, so a memory that reads
alike lists no later first cell. -/
theorem Memory.not_above_of_peek_eq {n : Memory} {v : Byte}
    (hm : Memory.wf p ((a, v) :: m) = true)
    (h : ∀ b, Memory.peek p ((a, v) :: m) b = Memory.peek p n b) : ¬ Memory.above a n := by
  intro hn
  obtain ⟨-, hv, -, -⟩ := (Memory.wf_cons ..).1 hm
  have ha := h a
  rw [Memory.peek_cons_same, Memory.peek_of_above hn] at ha
  exact hv ha

theorem Memory.above_cons {b : Nat} {v : Byte} (hm : Memory.wf p ((a, v) :: m) = true)
    (h : b < a) : Memory.above b ((a, v) :: m) := by
  obtain ⟨-, -, habove, -⟩ := (Memory.wf_cons ..).1 hm
  exact List.forall_mem_cons.2 ⟨h, fun c hc => h.trans (habove c hc)⟩

/-- Two canonical memories that read alike begin with the same cell. -/
theorem Memory.head_eq_of_peek_eq {b : Nat} {v u : Byte} {n : Memory}
    (hm : Memory.wf p ((a, v) :: m) = true) (hn : Memory.wf p ((b, u) :: n) = true)
    (h : ∀ c, Memory.peek p ((a, v) :: m) c = Memory.peek p ((b, u) :: n) c) :
    a = b ∧ v = u := by
  obtain hlt | rfl | hgt := Nat.lt_trichotomy a b
  · exact absurd (Memory.above_cons hn hlt) (Memory.not_above_of_peek_eq hm h)
  · have ha := h a
    rw [Memory.peek_cons_same, Memory.peek_cons_same] at ha
    exact ⟨rfl, ha⟩
  · exact absurd (Memory.above_cons hm hgt) (Memory.not_above_of_peek_eq hn fun c => (h c).symm)

end

/-- Settles O10: inside memory the checked accesses are `peek` and `poke`. -/
theorem boundedReadAfterWrite : Obligations.BoundedReadAfterWrite := by
  intro p m a v
  refine ⟨fun hm ha => ⟨_, Memory.write_of_lt v ha, ?_, fun b hb => ?_⟩, Memory.read_of_lt,
    fun ha => ⟨Memory.read_of_le ha, Memory.write_of_le v ha⟩⟩
  · rw [Memory.read_of_lt ha, Memory.peek_poke_same a v hm]
  · rw [Memory.read, Memory.read, Memory.peek_poke_other m v hb]

/-- Settles O11: by induction along both lists, whose first cells agree; at the first cell both
tails read as reset. -/
theorem canonicalMemoriesThatReadAlikeAreEqual :
    Obligations.CanonicalMemoriesThatReadAlikeAreEqual := by
  intro p m
  induction m with
  | nil =>
    intro n _ hn h
    cases n with
    | nil => rfl
    | cons c n =>
      exact absurd (List.forall_mem_nil _) (Memory.not_above_of_peek_eq hn fun b => (h b).symm)
  | cons c m ih =>
    intro n hm hn h
    cases n with
    | nil => exact absurd (List.forall_mem_nil _) (Memory.not_above_of_peek_eq hm h)
    | cons c' n =>
      obtain ⟨a, v⟩ := c
      obtain ⟨b, u⟩ := c'
      obtain ⟨rfl, rfl⟩ := Memory.head_eq_of_peek_eq hm hn h
      obtain ⟨-, -, hma, hm⟩ := (Memory.wf_cons ..).1 hm
      obtain ⟨-, -, hna, hn⟩ := (Memory.wf_cons ..).1 hn
      rw [ih n hm hn fun b => ?_]
      obtain rfl | hb := eq_or_ne b a
      · rw [Memory.peek_of_above hma, Memory.peek_of_above hna]
      · rw [← Memory.peek_cons_other v hb, h b, Memory.peek_cons_other v hb]

end Sys2Proof.Machine
end

section
/-! The ports of the host (R193 to R197): what each writes and reports. -/

namespace Sys2Proof.Machine

/-! ### The load -/

theorem perform_load_of_fits {p : Params} {bytes : List Byte}
    (h : p.startAddr.toNat + bytes.length ≤ p.memSize) (s : State) :
    perform p (.load bytes) s =
      .next (setMem (Memory.pokeBytes p s.mem p.startAddr.toNat bytes) s, .ok) := by
  rw [perform, hostLoad, if_pos h, writeReport]

theorem perform_load_of_too_long {p : Params} {bytes : List Byte}
    (h : p.memSize < p.startAddr.toNat + bytes.length) (s : State) :
    perform p (.load bytes) s = .next (s, .refused) := by
  rw [perform, hostLoad, if_neg (Nat.not_le.2 h), writeReport]

/-- Settles O45: the block that fits is written by `pokeBytes`, which writes its range alone. -/
theorem hostLoadWritesAllOrNothing : Obligations.HostLoadWritesAllOrNothing := by
  intro p bytes s hm
  refine ⟨fun hfit => ⟨_, perform_load_of_fits hfit s, fun k hk => ?_, fun a ha => ?_, rfl⟩,
    fun hlong => perform_load_of_too_long hlong s⟩
  · rw [setMem_mem, Memory.peek_pokeBytes bytes _ hm hfit, dif_pos (by omega)]
    simp
  · rw [setMem_mem, Memory.peek_pokeBytes bytes _ hm hfit, dif_neg (by omega)]

/-! ### Keys and timers -/

theorem perform_setKey_of_lt {p : Params} {k : Nat} (h : k < p.keyCount) (b : Bool) (s : State) :
    perform p (.setKey k b) s = .next (setKey k b s, .ok) := by
  rw [perform, hostSetKey, if_pos h, writeReport]

theorem perform_setKey_of_le {p : Params} {k : Nat} (h : p.keyCount ≤ k) (b : Bool) (s : State) :
    perform p (.setKey k b) s = .next (s, .refused) := by
  rw [perform, hostSetKey, if_neg (Nat.not_lt.2 h), writeReport]

theorem perform_setTimer (p : Params) (n : TimerName) (v : Byte) (s : State) :
    perform p (.setTimer n v) s = .next (hostSetTimer n v s, .ok) := rfl

/-- Settles O46: a key write is one `set` in the list of keys, a timer write one of the two
counters. -/
theorem hostKeyAndTimerWritesChangeOnlyTheirTarget :
    Obligations.HostKeyAndTimerWritesChangeOnlyTheirTarget := by
  refine ⟨fun p k b s hkeys => ⟨fun hk => ⟨_, perform_setKey_of_lt hk b s, ?_, fun j hj => ?_, rfl⟩,
    fun hk => perform_setKey_of_le hk b s⟩,
    fun p v s => ⟨perform_setTimer p .delay v s, perform_setTimer p .sound v s⟩⟩
  · exact List.getElem?_set_self (hkeys ▸ hk)
  · exact List.getElem?_set_ne hj.symm

/-! ### The framebuffer -/

theorem perform_readFramebuffer (p : Params) (s : State) :
    perform p .readFramebuffer s = .next (s, .cells (fbCellList s)) := rfl

theorem perform_observe (p : Params) (s : State) :
    perform p .observe s = .next (s, .observed s) := rfl

/-- The renderer's list is the rows one after another, as one vector of `FB_H * FB_W` cells. -/
theorem fbCellList_eq_flatten (s : State) : fbCellList s = s.fb.flatten.toList := by
  simp only [fbCellList, List.flatMap, Vector.toList, Vector.flatten, Array.toList_flatten,
    Array.toList_map, List.map_map]
  rfl

theorem length_fbCellList (s : State) : (fbCellList s).length = 2048 := by
  rw [fbCellList_eq_flatten]
  exact Vector.length_toList

/-- R35: row-major, `FB_W` cells to a row. -/
theorem row_column_of_index (cx : Fin fbW) (cy : Fin fbH) :
    (cy.val * 64 + cx.val) / 64 = cy.val ∧ (cy.val * 64 + cx.val) % 64 = cx.val := by
  have hlt : cx.val < 64 := cx.isLt
  omega

theorem fbCellList_getElem? (s : State) (cx : Fin fbW) (cy : Fin fbH) :
    (fbCellList s)[cy.val * 64 + cx.val]? = some (pixel s cx cy) := by
  obtain ⟨hrow, hcolumn⟩ := row_column_of_index cx cy
  have hlt : cy.val * 64 + cx.val < fbH * fbW := (fbIndex cx cy).isLt
  rw [fbCellList_eq_flatten, Vector.getElem?_toList, Vector.getElem?_eq_getElem hlt,
    Vector.getElem_flatten]
  simp only [hrow, hcolumn]
  rfl

theorem fbCell_fbIndex (s : State) (cx : Fin fbW) (cy : Fin fbH) :
    fbCell s (fbIndex cx cy) = pixel s cx cy := by
  obtain ⟨hrow, hcolumn⟩ := row_column_of_index cx cy
  have hr : fbRow (fbIndex cx cy) = cy := Fin.ext hrow
  have hc : fbColumn (fbIndex cx cy) = cx := Fin.ext hcolumn
  simp only [fbCell, hr, hc, pixel]

/-- Settles O47: the list, the cell numbering and the pixel are one row-major order. -/
theorem readPortsReturnTheCellsAndChangeNothing :
    Obligations.ReadPortsReturnTheCellsAndChangeNothing :=
  fun p s => ⟨⟨_, perform_readFramebuffer p s, length_fbCellList s,
    fun cx cy => ⟨fbCellList_getElem? s cx cy, fbCell_fbIndex s cx cy⟩⟩, perform_observe p s⟩

end Sys2Proof.Machine
end

section
/-! The latch along a run (R177): no operation but reset and construct leaves the halted condition,
and on a halted machine the others write memory, keys and timers alone. -/

namespace Sys2Proof.Machine

/-- The state of `s` but for what the host itself writes. -/
def SameButHostWrites (s t : State) : Prop :=
  t = { s with mem := t.mem, keys := t.keys, dt := t.dt, st := t.st }

theorem SameButHostWrites.trans {s t u : State} (hst : SameButHostWrites s t)
    (htu : SameButHostWrites t u) : SameButHostWrites s u := by
  rw [SameButHostWrites, htu, hst]

theorem sameButHostWrites_of_perform {p : Params} {op : Op} {s t : State} {rep : Report}
    {r : FaultRecord} (hr : s.fault = some r) (hop : op.resets = false)
    (h : perform p op s = .next (t, rep)) : SameButHostWrites s t := by
  cases op with
  | construct | reset => cases hop
  | instructionStep =>
    rw [perform_instructionStep (instructionStep_halted p hr)] at h
    cases h
    rfl
  | timerStep =>
    rw [perform_timerStep, timerStep_halted hr] at h
    cases h
    rfl
  | load bytes =>
    obtain hlong | hfit := Nat.lt_or_ge p.memSize (p.startAddr.toNat + bytes.length)
    · rw [perform_load_of_too_long hlong] at h
      cases h
      rfl
    · rw [perform_load_of_fits hfit] at h
      cases h
      rfl
  | setKey k b =>
    obtain hk | hk := Nat.lt_or_ge k p.keyCount
    · rw [perform_setKey_of_lt hk] at h
      cases h
      rfl
    · rw [perform_setKey_of_le hk] at h
      cases h
      rfl
  | setTimer n v =>
    obtain ⟨d, e, hset⟩ := hostSetTimer_cases n v s
    rw [perform_setTimer, hset] at h
    cases h
    rfl
  | readFramebuffer | observe =>
    cases h
    rfl

/-- Settles O48: by induction over the run; the record itself stays, so each operation starts
halted. -/
theorem latchHoldsUntilReset : Obligations.LatchHoldsUntilReset := by
  intro p ops
  induction ops with
  | nil =>
    intro s t rs r _ _ h
    cases h
    rfl
  | cons op ops ih =>
    intro s t rs r hr hops h
    obtain ⟨s', rep, rs', hop, hrun, -⟩ := runOps_cons_eq_next_iff.1 h
    obtain ⟨hnot, hrest⟩ := List.forall_mem_cons.1 hops
    have hfirst : SameButHostWrites s s' := sameButHostWrites_of_perform hr hnot hop
    have hr' : s'.fault = some r := by rw [hfirst]; exact hr
    exact hfirst.trans (ih s' t rs' r hr' hrest hrun)

end Sys2Proof.Machine
end
